-- ==== Sys2Proof/Word.lean ====
section
/-! DEFINITION. The word of the control register space: every control register is `XLEN` = 32 bits wide
(spec/10_state.md section 3, spec/00_scope.md rule R6). -/

namespace Sys2Proof

/-- A control register word, and the command word itself: 32 bits (rules R6, R29, R71). -/
abbrev Word := BitVec 32

end Sys2Proof
end

