-- ==== Sys2Proof/Config.lean ====
section
/-! DEFINITION. The configuration (spec/00_scope.md rule R6, spec/46_fft_port.md rule R200, spec/92_eei_decisions.md "Open
parameters in one place"): the numerics record, the configuration record with a field for each parameter of rule R6, and the
configuration of this machine. The carrier of real elements is a parameter of both records: every command, every host action
and the whole engine are defined over any carrier `Re` and any configuration over it, the ideal one over the real numbers
among them. The three parameters the spec fixes are pinned to their values; the three it leaves open are, for this machine,
opaque constants, so that no proof can see one. -/

namespace Sys2Proof

/-- The carrier of this machine's elements. A host's state has to be plain data that can be compared and written out, so the
elements of the one machine the host runs are codes, enough for any countable carrier, such as every format of finite width;
the record `Config.num` gives them their arithmetic, and no rule looks inside a code (rule R52). Over other carriers, the real
numbers among them, the same engine runs as `Engine.act`. Log entry 3. -/
structure Elem where
  code : Nat
deriving DecidableEq, Repr, Inhabited

/-- A complex value over a carrier: the pair `re + i·im` (spec/00_scope.md section 5.3). Complex values are working values
of a command and never stand in the state (rules R12, R34). -/
structure Cx (α : Type) where
  re : α
  im : α
deriving DecidableEq, Repr, Inhabited

/-- The numerics record `Num` over the carrier `α` (rule R200). Each field is a total function of its arguments alone. A
sequence of `N` values is a function on `Fin N`. -/
structure Numerics (α : Type) where
  /-- the pad value 0 -/
  zero : α
  /-- the integers `2`, `2·N`, `4·N` as elements -/
  ofNat : Nat → α
  add : α → α → α
  sub : α → α → α
  mul : α → α → α
  div : α → α → α
  /-- negation of one element. DESIGN CHOICE: the table of rule R200 types `neg` as a two-argument operation, in one row with
  `add` to `div`, and says no more of it. No step uses it. Log entry 23. -/
  neg : α → α
  /-- used only on `ofNat (4·N)` and `ofNat (2·N)` (rule R190) -/
  sqrt : α → α
  /-- the pair `(cos(pi·k/(2N)), -sin(pi·k/(2N)))` of rule R120, for `N ≥ 1` and any integer `k` -/
  twiddle : Nat → Int → Cx α
  /-- the collaborator's FFT on one line (rule R203) -/
  fft : (N : Nat) → (Fin N → Cx α) → Fin N → Cx α
  /-- the collaborator's inverse FFT on one line (rule R204) -/
  ifft : (N : Nat) → (Fin N → Cx α) → Fin N → Cx α
  /-- the collaborator's FFT on one plane (rule R205) -/
  fft2 : (N1 N2 : Nat) → (Fin N1 → Fin N2 → Cx α) → Fin N1 → Fin N2 → Cx α
deriving Inhabited

/-- `NSLOT`, the number of array registers: fixed by the 2-bit `RS` and `RD` (rule R6). -/
abbrev NSLOT : Nat := 4

/-- `MAX_RANK`, the largest rank and the number of `AXISj` and `LENj` registers: fixed by the register map (rule R6). -/
abbrev MAX_RANK : Nat := 8

/-- `XLEN`, the width of a control register (rule R6). -/
abbrev XLEN : Nat := 32

/-- The configuration record over the carrier `Re`, one field for each parameter of rule R6: a parameter of the step function,
not state (rules R20, R35). `maxElems = none` is an unbounded `MAX_ELEMS`. -/
structure Params (Re : Type) where
  nslot : Nat := NSLOT
  nslot_fixed : nslot = NSLOT := by rfl
  maxRank : Nat := MAX_RANK
  maxRank_fixed : maxRank = MAX_RANK := by rfl
  xlen : Nat := XLEN
  xlen_fixed : xlen = XLEN := by rfl
  /-- `MAX_ELEMS : Nat ∪ {∞}` (decision D9) -/
  maxElems : Option Nat
  /-- `MAX_ELEMS ≥ 1` -/
  maxElems_pos : ∀ m, maxElems = some m → 1 ≤ m
  /-- `Num`, its carrier `Re` included (decisions D14, D15) -/
  num : Numerics Re
  /-- `TOL`, a non-negative real (rule R202) -/
  tol : NNReal

/-- The implementation's numerics record: OPEN in the spec (decisions D14, D15). Log entry 3. -/
opaque Config.num : Numerics Elem

/-- The implementation's capacity: OPEN in the spec (decision D9). `none` is unbounded, `some k` is `MAX_ELEMS = k + 1`, so
that the constraint `MAX_ELEMS ≥ 1` holds by construction. Log entry 4. -/
opaque Config.capacity : Option Nat

/-- `MAX_ELEMS` of this machine, at least 1 (rule R6, decision D9). -/
def Config.maxElems : Option Nat :=
  Config.capacity.map (· + 1)

/-- `TOL` of this machine: OPEN in the spec (rule R202, decision D14). Log entry 5. -/
opaque Config.tol : NNReal

/-- The configuration of this machine. -/
def Config.params : Params Elem where
  maxElems := Config.maxElems
  maxElems_pos m h := by
    unfold Config.maxElems at h
    cases hc : Config.capacity <;> simp [hc] at h
    omega
  num := Config.num
  tol := Config.tol

end Sys2Proof
end

