-- ==== Sys2Proof/Machine/State.lean ====
section
/-! DEFINITION. The state of one engine instance as plain data (spec/10_state.md rules R20 to R36), the actions the host
performs on it (rules R22, R23, R54, R82, R237, R260), the errors a command raises (spec/60_exceptions.md rule R220), and the
machine right after reset (rule R36). -/

namespace Sys2Proof.Machine

/-- A Transform Array: its shape and its elements in row-major order (rules R21, R51). -/
structure TArray (α : Type) where
  shape : List Nat
  data : List α
deriving DecidableEq, Repr

/-- The value of an array register: the distinguished value `Empty` (nothing written since reset) or one array (rule R21).
`Empty` is the spec's own value, not a stand-in for an unknown one. -/
inductive AReg (α : Type) where
  | empty
  | array (x : TArray α)
deriving DecidableEq, Repr

/-- The element stores of an engine, its only memory: the four array registers `A[0..3]` (rules R20, R50). -/
abbrev Memory (Re : Type) := Vector (AReg Re) 4

/-- The registers of the control register space by name (rule R29). -/
inductive Reg where
  | cmd
  | status
  | fclr
  | seq
  | axis (j : Fin 8)
  | len (j : Fin 8)
deriving DecidableEq, Repr

/-- What the host can do to the engine, one action a step (decision D1): load or read a whole array register, read or write
one control register, reset. Offsets outside the register map and accesses of another width cannot be written down
(rules R53, R23). -/
inductive HostAction (Re : Type) where
  /-- `LoadArray(i, v)` (rule R23) -/
  | loadArray (i : Fin 4) (v : TArray Re)
  /-- `ReadArray(i)` (rule R22) -/
  | readArray (i : Fin 4)
  /-- `WriteReg(r, v)`; a write to `CMD` issues a command (rule R24), one to `FCLR` acknowledges a fault (rule R28) -/
  | writeReg (r : Reg) (v : Word)
  /-- `ReadReg(r)` (rule R54) -/
  | readReg (r : Reg)
  /-- reset (rule R260) -/
  | reset
deriving DecidableEq, Repr

/-- A value a read returned to the host (rule R270). -/
inductive ReadValue (Re : Type) where
  | array (i : Fin 4) (v : AReg Re)
  | word (r : Reg) (v : Word)
deriving DecidableEq, Repr

/-- The seven errors a command can raise (rule R220). Each is taken by fault entry and is a next state of the machine, never
a stop. -/
inductive Cause where
  /-- `E_TYPE`: unsupported transform type (rule R221) -/
  | eType
  /-- `E_SHAPE`: shape mismatch, or a target length 0 (rules R222, R228) -/
  | eShape
  /-- `E_AXIS`: invalid or repeated axis (rule R223) -/
  | eAxis
  /-- `E_NORM`: unrecognised `norm` (rule R224) -/
  | eNorm
  /-- `E_ILLEGAL`: illegal command word (rule R225) -/
  | eIllegal
  /-- `E_EMPTY`: empty source register (rule R226) -/
  | eEmpty
  /-- `E_CAP`: the adapted array exceeds `MAX_ELEMS` (rule R227) -/
  | eCap
deriving DecidableEq, Repr

/-- The whole architectural state of one engine instance over a carrier of elements (rule R20). `STATUS` is held as its three
fields; its reserved bits are hardwired 0 and need no storage (rules R27, R30). `FCLR` holds nothing (rule R28). -/
structure Engine (Re : Type) where
  /-- `A[0..3]` (rule R21) -/
  arrays : Memory Re
  /-- `CMD`, the last accepted command word (rule R24) -/
  cmd : Word
  /-- `AXIS0..AXIS7` (rule R25) -/
  axis : Vector Word 8
  /-- `LEN0..LEN7` (rule R26) -/
  len : Vector Word 8
  /-- `STATUS.DONE` (rule R27) -/
  done : Bool
  /-- `STATUS.FAULT` (rule R27) -/
  fault : Bool
  /-- `STATUS.ECODE` (rule R27) -/
  ecode : BitVec 4
  /-- `SEQ`, the count of commands completed without fault (rule R32) -/
  seq : Word
deriving DecidableEq, Repr

/-- The state of this machine: its engine, over the codes of elements, and the model's own two lists (log entries 1 and 2), the
actions the host will perform and the values its reads have returned. -/
structure State extends Engine Elem where
  /-- the host's actions still to come, the next one first -/
  pending : List (HostAction Elem)
  /-- the values read so far, the oldest first -/
  reads : List (ReadValue Elem)
deriving DecidableEq, Repr

/-- Reasons for the machine to stop with a fault: none. The engine never halts by itself (rule R270); every error of the spec
is taken as a next state by fault entry (rule R230), so nothing raises one (safe: no step ends here). -/
inductive Fault where
deriving DecidableEq, Repr

/-- Reasons for a step to have no meaning. -/
inductive Refusal where
  /-- An instruction without a meaning, by its mnemonic; no arm of `exec` answers so. Safe. -/
  | notModelled (mnemonic : String)
  /-- Raised by `LoadArray` of a value that is no legal value of an array register (rank 0 or above 8, a zero or too large
  extent, more than `MAX_ELEMS` elements, or not one element per multi-index): not a move of the machine (rule R23,
  spec/93_implementation_defined.md U17). Safe: the model stops where the hardware cannot be driven so. -/
  | notAMove
deriving DecidableEq, Repr

/-- An engine right after reset (rules R36, R260): the array registers `Empty`, every control register 0. -/
def Engine.reset {Re : Type} : Engine Re where
  arrays := Vector.replicate 4 .empty
  cmd := 0#32
  axis := Vector.replicate 8 0#32
  len := Vector.replicate 8 0#32
  done := false
  fault := false
  ecode := 0#4
  seq := 0#32

/-- The machine right after reset. The host has performed no action and none is planned. -/
def State.reset : State where
  toEngine := Engine.reset
  pending := []
  reads := []

end Sys2Proof.Machine
end

