-- ==== Sys2Proof/Machine/Arrays.lean ====
section
/-! DEFINITION. Transform Arrays as values: shapes, the row-major linear index, reading and building an array by
multi-index, and the lift of a line or plane function to arrays (spec/00_scope.md section 5.2, spec/20_memory.md rule R51).
All index arithmetic is on exact natural numbers (rule R7). -/

namespace Sys2Proof.Machine

/-- The number of elements of a shape: the product of its extents. -/
def shapeSize : List Nat → Nat
  | [] => 1
  | d :: ds => d * shapeSize ds

/-- The row-major linear index of a multi-index: the sum of each coordinate times its stride, where the stride of an axis is
the product of the extents after it (rule R51). -/
def lin : List Nat → List Nat → Nat
  | _ :: ds, i :: is => i * shapeSize ds + lin ds is
  | _, _ => 0

/-- The multi-index of a linear index, the inverse of `lin` below the size of the shape. -/
def unlin : List Nat → Nat → List Nat
  | [], _ => []
  | _ :: ds, k => k / shapeSize ds :: unlin ds (k % shapeSize ds)

/-- A multi-index of a shape: one coordinate per axis, each below the axis' extent. -/
def inBounds : List Nat → List Nat → Bool
  | [], [] => true
  | d :: ds, i :: is => decide (i < d) && inBounds ds is
  | _, _ => false

/-- The element of `x` at the multi-index `i`, and `z` where `x` has none. -/
def TArray.at {α : Type} (z : α) (x : TArray α) (i : List Nat) : α :=
  if inBounds x.shape i then x.data.getD (lin x.shape i) z else z

/-- The array of shape `sh` whose element at each multi-index `i` is `f i`, in row-major order. -/
def TArray.build {α : Type} (sh : List Nat) (f : List Nat → α) : TArray α :=
  { shape := sh, data := (List.range (shapeSize sh)).map fun k => f (unlin sh k) }

/-- `along(a, f, x)`: every line of `x` along axis `a` is replaced by `f` of it (spec/00_scope.md section 5.2), for an `f` that
keeps the length of a line. -/
def along {α : Type} (z : α) (a : Nat) (f : (N : Nat) → (Fin N → α) → Fin N → α) (x : TArray α) : TArray α :=
  TArray.build x.shape fun i =>
    if h : i.getD a 0 < x.shape.getD a 0 then
      f (x.shape.getD a 0) (fun j => x.at z (i.set a j.val)) ⟨i.getD a 0, h⟩
    else z

/-- The same lift for a function of planes: every plane of `x` along the axes `p` and `q` is replaced by `f` of it. -/
def alongPlane {α : Type} (z : α) (p q : Nat)
    (f : (N1 N2 : Nat) → (Fin N1 → Fin N2 → α) → Fin N1 → Fin N2 → α) (x : TArray α) : TArray α :=
  TArray.build x.shape fun i =>
    if h : i.getD p 0 < x.shape.getD p 0 ∧ i.getD q 0 < x.shape.getD q 0 then
      f (x.shape.getD p 0) (x.shape.getD q 0) (fun j1 j2 => x.at z ((i.set p j1.val).set q j2.val))
        ⟨i.getD p 0, h.1⟩ ⟨i.getD q 0, h.2⟩
    else z

/-- Whether `n` elements fit in an array register under a capacity (rules R21, R227). -/
def fits (maxElems : Option Nat) (n : Nat) : Bool :=
  match maxElems with
  | none => true
  | some m => decide (n ≤ m)

/-- A legal value of an array register (rule R21): rank 1 to `MAX_RANK` = 8, extents 1 to 2^32 - 1, at most `MAX_ELEMS`
elements, one element per multi-index. -/
def TArray.wf {α : Type} (maxElems : Option Nat) (x : TArray α) : Bool :=
  decide (1 ≤ x.shape.length) && decide (x.shape.length ≤ MAX_RANK) && x.shape.all (fun d => decide (1 ≤ d) && decide (d < 2 ^ 32)) &&
    fits maxElems (shapeSize x.shape) && decide (x.data.length = shapeSize x.shape)

/-- A legal content of an array register: `Empty` or a legal array (rule R21). -/
def AReg.wf {α : Type} (maxElems : Option Nat) : AReg α → Bool
  | .empty => true
  | .array x => x.wf maxElems

/-- The canonical form of the element stores under a capacity: every array register holds a legal value (rule R21). -/
def Memory.wf {Re : Type} (maxElems : Option Nat) (m : Memory Re) : Bool :=
  m.toList.all fun r => r.wf maxElems

end Sys2Proof.Machine
end

