-- ==== Sys2Proof/Machine/Interleaver.lean ====
section
/-! DEFINITION. The unit `sample_interleaver` (spec/40_sample_interleaver.md): `ILV` and `DILV` on a line, in the index forms
of rules R100 and R103, and on an array (rules R101, R104). Pure data movement over any element type (rule R106). -/

namespace Sys2Proof.Machine

/-- `ceil_half(N) = (N + 1) div 2` (spec/00_scope.md section 5.1). -/
def ceilHalf (N : Nat) : Nat := (N + 1) / 2

/-- `ILV` on a line: `v[j] = x[2j]` for `j < ceil_half(N)`, else `v[j] = x[2(N-1-j)+1]` (rule R100). -/
def ilv {α : Type} (N : Nat) (x : Fin N → α) (j : Fin N) : α :=
  if h : j.val < ceilHalf N then x ⟨2 * j.val, by unfold ceilHalf at h; omega⟩
  else x ⟨2 * (N - 1 - j.val) + 1, by unfold ceilHalf at h; omega⟩

/-- `DILV` on a line: `u[i] = y[i div 2]` for even `i`, else `u[i] = y[N-1-(i-1) div 2]` (rule R103). -/
def dilv {α : Type} (N : Nat) (y : Fin N → α) (i : Fin N) : α :=
  if i.val % 2 = 0 then y ⟨i.val / 2, by omega⟩ else y ⟨N - 1 - (i.val - 1) / 2, by omega⟩

/-- `ILV_a(x) = along(a, ILV, x)` (rule R101). -/
def ilvAlong {α : Type} (z : α) (a : Nat) (x : TArray α) : TArray α :=
  along z a ilv x

/-- `DILV_a(y) = along(a, DILV, y)` (rule R104). -/
def dilvAlong {α : Type} (z : α) (a : Nat) (y : TArray α) : TArray α :=
  along z a dilv y

end Sys2Proof.Machine
end

