-- ==== Sys2Proof/Machine/NormScaler.lean ====
section
/-! DEFINITION. The unit `norm_scaler` (spec/45_norm_scaler.md). -/

namespace Sys2Proof.Machine

/-- `NRM` on a line: element 0 divided by `sqrt(4N)`, element `k ≥ 1` by `sqrt(2N)` (rule R190). -/
def nrm {α : Type} (num : Numerics α) (N : Nat) (y : Fin N → α) (k : Fin N) : α :=
  if k.val = 0 then num.div (y k) (num.sqrt (num.ofNat (4 * N))) else num.div (y k) (num.sqrt (num.ofNat (2 * N)))

/-- `P` passes of `NRM` on a line (rules R150, R193). -/
def nrmPasses {α : Type} (num : Numerics α) (N : Nat) : Nat → (Fin N → α) → Fin N → α
  | 0, y => y
  | P + 1, y => nrmPasses num N P (nrm num N y)

/-- `NRM_a(y) = along(a, NRM, y)` (rule R191). -/
def nrmAlong {α : Type} (num : Numerics α) (a : Nat) (y : TArray α) : TArray α :=
  along num.zero a (nrm num) y

end Sys2Proof.Machine
end

