-- ==== Sys2Proof/Syntax.lean ====
section
/-! DEFINITION. The commands: one constructor per row of spec/opcode_table.json, over the fields of the one command format
(spec/30_encoding.md rules R71, R72, R78). The axis and length entries the count fields select stand in the registers
`AXIS0..7` and `LEN0..7` of the state and are read when the command runs (rules R25, R26). -/

namespace Sys2Proof

/-- The fields of a command word beside its opcode (rule R71). -/
structure Fields where
  /-- `TYPE`, the transform type as an unsigned integer (rule R73) -/
  type : BitVec 4
  /-- `NORM` (rule R74) -/
  norm : BitVec 2
  /-- `LG`: target lengths are given in `LEN0..` -/
  lg : Bool
  /-- `AG`: axes are given in `AXIS0..` -/
  ag : Bool
  /-- `NAX`: number of valid axis entries -/
  nax : BitVec 4
  /-- `NLEN`: number of valid length entries -/
  nlen : BitVec 4
  /-- `RS`: source array register number (rule R77) -/
  rs : Fin 4
  /-- `RD`: destination array register number (rule R77) -/
  rd : Fin 4
deriving DecidableEq, Repr

/-- The four commands (rule R72). -/
inductive Instr where
  /-- `DCT`, forward 1-D transform (rule R137) -/
  | dct (f : Fields)
  /-- `IDCT`, inverse 1-D transform (rule R153) -/
  | idct (f : Fields)
  /-- `DCTN`, forward transform over several axes (rule R175) -/
  | dctn (f : Fields)
  /-- `IDCTN`, inverse transform over several axes (rule R177) -/
  | idctn (f : Fields)
deriving DecidableEq, Repr

/-- The fields of a command. -/
def Instr.fields : Instr → Fields
  | .dct f => f
  | .idct f => f
  | .dctn f => f
  | .idctn f => f

/-- The opcode `OPC` of a command (rule R72). -/
def Instr.opc : Instr → BitVec 4
  | .dct _ => 1#4
  | .idct _ => 2#4
  | .dctn _ => 3#4
  | .idctn _ => 4#4

end Sys2Proof
end

