-- ==== Sys2Proof/WellFormed.lean ====
section
/-! DEFINITION. Legality of a command (spec/30_encoding.md rule R79): the conditions L1 to L7 by name. L1 (an unknown opcode)
and L2 (nonzero reserved bits) are about words only, since no `Instr` has them; L3 to L7 are checked on the fields. -/

namespace Sys2Proof

/-- Why a command word is illegal: the rows L1 to L7 of rule R79. -/
inductive Illegal where
  /-- L1: `OPC ∉ {1, 2, 3, 4}` -/
  | opcode
  /-- L2: bits 31..24 are not all 0 -/
  | reservedBits
  /-- L3: `AG = 0` and `NAX ≠ 0` -/
  | axesWithoutAG
  /-- L4: `LG = 0` and `NLEN ≠ 0` -/
  | lensWithoutLG
  /-- L5: `NAX > 8` or `NLEN > 8` -/
  | tooManyEntries
  /-- L6: `DCT` or `IDCT` with `AG = 1` and `NAX ≠ 1` -/
  | axisCount
  /-- L7: `DCT` or `IDCT` with `LG = 1` and `NLEN ≠ 1` -/
  | lenCount
deriving DecidableEq, Repr

/-- The conditions L3, L4 and L5, which bind all four commands. -/
def Fields.countIllegal (f : Fields) : Option Illegal :=
  if f.ag = false ∧ f.nax ≠ 0#4 then some .axesWithoutAG
  else if f.lg = false ∧ f.nlen ≠ 0#4 then some .lensWithoutLG
  else if f.nax.toNat > 8 ∨ f.nlen.toNat > 8 then some .tooManyEntries
  else none

/-- The conditions L3 to L7, which bind `DCT` and `IDCT`. -/
def Fields.countIllegal1 (f : Fields) : Option Illegal :=
  match f.countIllegal with
  | some e => some e
  | none =>
    if f.ag = true ∧ f.nax ≠ 1#4 then some .axisCount
    else if f.lg = true ∧ f.nlen ≠ 1#4 then some .lenCount
    else none

/-- The first of the conditions L3 to L7 that the command violates. -/
def Instr.illegal? : Instr → Option Illegal
  | .dct f => f.countIllegal1
  | .idct f => f.countIllegal1
  | .dctn f => f.countIllegal
  | .idctn f => f.countIllegal

/-- A well-formed command: one that a legal word spells. -/
def Instr.wf (i : Instr) : Bool :=
  i.illegal?.isNone

end Sys2Proof
end

