-- ==== Sys2Proof/Decode.lean ====
section
/-! DEFINITION. The decoder and the encoder of the command word (spec/30_encoding.md rules R71, R72, R79, R80). The decoder is
total on all 2^32 words: a word is one of the four commands or is rejected by the name of the condition it violates. -/

namespace Sys2Proof

/-- `OPC = w[3:0]`. -/
def opcField (w : Word) : BitVec 4 := w.extractLsb' 0 4

/-- The reserved bits `w[31:24]`. -/
def reservedField (w : Word) : BitVec 8 := w.extractLsb' 24 8

/-- The fields of a word, by the bit positions of rule R71. -/
def fieldsOf (w : Word) : Fields where
  type := w.extractLsb' 4 4
  norm := w.extractLsb' 8 2
  lg := w.getLsbD 10
  ag := w.getLsbD 11
  nax := w.extractLsb' 12 4
  nlen := w.extractLsb' 16 4
  rs := (w.extractLsb' 20 2).toFin
  rd := (w.extractLsb' 22 2).toFin

/-- The command an opcode selects, over given fields (rule R72); none for `0x0` and `0x5..0xF`. -/
def instrOf (opc : BitVec 4) (f : Fields) : Option Instr :=
  if opc = 1#4 then some (.dct f)
  else if opc = 2#4 then some (.idct f)
  else if opc = 3#4 then some (.dctn f)
  else if opc = 4#4 then some (.idctn f)
  else none

/-- Decodes a command word (rules R72, R78, R79, R80). -/
def decode (w : Word) : Except Illegal Instr :=
  match instrOf (opcField w) (fieldsOf w) with
  | none => .error .opcode
  | some i =>
    if reservedField w ≠ 0#8 then .error .reservedBits
    else
      match i.illegal? with
      | some e => .error e
      | none => .ok i

/-- A field's bits at their place in the word: the field's bit 0 at bit `lo`. -/
def place {n : Nat} (v : BitVec n) (lo : Nat) : Word :=
  v.setWidth 32 <<< lo

/-- The word of given fields under an opcode, field by field as rule R71 places them; bits 31..24 stay 0. -/
def encodeFields (opc : BitVec 4) (f : Fields) : Word :=
  place opc 0 ||| place f.type 4 ||| place f.norm 8 ||| place (BitVec.ofBool f.lg) 10 ||| place (BitVec.ofBool f.ag) 11 |||
    place f.nax 12 ||| place f.nlen 16 ||| place (BitVec.ofFin f.rs : BitVec 2) 20 |||
    place (BitVec.ofFin f.rd : BitVec 2) 22

/-- The word of a command (rules R71, R72). -/
def encode (i : Instr) : Word :=
  encodeFields i.opc i.fields

/-- The command the decoder reads from a table word of `nbits` bits: bits above `nbits` are 0, and a number that does not fit
the one command length of 32 bits is no word (rule R71). -/
def decodeTableWord (nbits w : Nat) : Option Instr :=
  if w % 2 ^ nbits < 2 ^ 32 then
    match decode (BitVec.ofNat 32 (w % 2 ^ nbits)) with
    | .ok i => some i
    | .error _ => none
  else none

end Sys2Proof
end

