-- ==== Sys2Proof/Machine/Flags.lean ====
section
/-! DEFINITION. The flags: the fields of `STATUS` (spec/10_state.md rules R27, R33), the cause codes (spec/60_exceptions.md
rule R220), and how completion, fault entry and fault return write them. -/

namespace Sys2Proof.Machine

/-- The value of `ECODE` for a cause (rule R220). -/
def Cause.code : Cause → BitVec 4
  | .eType => 1#4
  | .eShape => 2#4
  | .eAxis => 3#4
  | .eNorm => 4#4
  | .eIllegal => 5#4
  | .eEmpty => 6#4
  | .eCap => 7#4

/-- `STATUS` as the host reads it: `DONE` in bit 0, `FAULT` in bit 1, bits 3..2 zero, `ECODE` in bits 7..4, bits 31..8 zero
(rule R27). -/
def Engine.statusWord {Re : Type} (s : Engine Re) : Word :=
  0#24 ++ s.ecode ++ 0#2 ++ BitVec.ofBool s.fault ++ BitVec.ofBool s.done

/-- Fault entry, `raise E_x` (rule R230): `FAULT` and `ECODE` are set, `DONE` is cleared, and nothing else changes. -/
def Engine.raise {Re : Type} (s : Engine Re) (e : Cause) : Engine Re :=
  { s with fault := true, ecode := e.code, done := false }

/-- Fault return, the acknowledge by a write to `FCLR` (rules R28, R231): `FAULT` and `ECODE` are cleared, `DONE` is kept. -/
def Engine.acknowledge {Re : Type} (s : Engine Re) : Engine Re :=
  { s with fault := false, ecode := 0#4 }

/-- The flags and the counter after a command that completes (rules R32, R33, R234): `DONE` is set, `SEQ` counts modulo
2^32. -/
def Engine.markDone {Re : Type} (s : Engine Re) : Engine Re :=
  { s with done := true, seq := s.seq + 1#32 }

end Sys2Proof.Machine
end

