-- ==== Sys2Proof/Machine/Ops.lean ====
section
/-! DEFINITION. The named operations over the register files: array registers (spec/10_state.md rules R22, R23,
spec/20_memory.md rules R51, R54, R56), control registers (rules R24 to R32), and the end of a command, which either
completes (spec/60_exceptions.md rule R234) or takes the error it raised by fault entry (rule R230; `Engine.raise`, and the
return `Engine.acknowledge`, stand in Flags.lean). -/

namespace Sys2Proof.Machine

/-- Reads array register `i` whole (rule R22). -/
def Engine.readA {Re : Type} (s : Engine Re) (i : Fin 4) : AReg Re :=
  s.arrays[i]

/-- Writes array register `i` whole (rule R22). -/
def Engine.writeA {Re : Type} (s : Engine Re) (i : Fin 4) (v : AReg Re) : Engine Re :=
  { s with arrays := s.arrays.set i v }

/-- `MemRead(i, addr, n)`: `n` consecutive elements of array register `i` from linear index `addr`; defined only when the
register is not `Empty` and holds all of them (rule R51). -/
def Engine.memRead {Re : Type} (s : Engine Re) (i : Fin 4) (addr n : Nat) : Option (List Re) :=
  match s.readA i with
  | .empty => none
  | .array x => if addr + n ≤ x.data.length then some ((x.data.drop addr).take n) else none

/-- `ReadReg(r)`: the value the host reads (rules R24 to R29, R32). A read of `FCLR` returns 0. -/
def Engine.readReg {Re : Type} (s : Engine Re) : Reg → Word
  | .cmd => s.cmd
  | .status => s.statusWord
  | .fclr => 0#32
  | .seq => s.seq
  | .axis j => s.axis[j]
  | .len j => s.len[j]

/-- A write to a register other than `CMD` (rules R25 to R28, R32): `AXISj` and `LENj` store the value, a write of any value
to `FCLR` acknowledges the fault, writes to `STATUS` and `SEQ` are ignored. `CMD` is not written here: its write is the
issue of a command (rule R24, `issue`). -/
def Engine.storeReg {Re : Type} (s : Engine Re) (r : Reg) (v : Word) : Engine Re :=
  match r with
  | .cmd => s
  | .status => s
  | .fclr => s.acknowledge
  | .seq => s
  | .axis j => { s with axis := s.axis.set j v }
  | .len j => { s with len := s.len.set j v }

/-- The value of a read is given to the host (rule R270). -/
def State.record (s : State) (v : ReadValue Elem) : State :=
  { s with reads := s.reads ++ [v] }

/-- Completion of a command (rules R22, R32, R33, R234): the result replaces the destination register's value, shape
included, `DONE` is set and `SEQ` counts. -/
def Engine.complete {Re : Type} (s : Engine Re) (rd : Fin 4) (y : TArray Re) : Engine Re :=
  (s.writeA rd (.array y)).markDone

/-- The end of a command: completion with its result, or fault entry with its error. -/
def Engine.finish {Re : Type} (s : Engine Re) (rd : Fin 4) : Except Cause (TArray Re) → Engine Re
  | .ok y => s.complete rd y
  | .error e => s.raise e

/-- The byte offset of a register in the control register space (rule R29). -/
def Reg.offset : Reg → Nat
  | .cmd => 0x00
  | .status => 0x04
  | .fclr => 0x08
  | .seq => 0x0C
  | .axis j => 0x10 + 4 * j.val
  | .len j => 0x30 + 4 * j.val

/-- The register at a byte offset; none for an offset outside `0x00..0x4F` or one that is no multiple of 4, which is not a
move of the machine (rules R29, R53). -/
def Reg.ofOffset? (off : Nat) : Option Reg :=
  if off = 0x00 then some .cmd
  else if off = 0x04 then some .status
  else if off = 0x08 then some .fclr
  else if off = 0x0C then some .seq
  else if off % 4 ≠ 0 then none
  else if h : 0x10 ≤ off ∧ off < 0x30 then some (.axis ⟨(off - 0x10) / 4, by omega⟩)
  else if h : 0x30 ≤ off ∧ off < 0x50 then some (.len ⟨(off - 0x30) / 4, by omega⟩)
  else none

end Sys2Proof.Machine
end

