-- ==== Sys2Proof/Machine/Operands.lean ====
section
/-! DEFINITION. Operand assembly and the checks of a command, the first half of every command: the `norm` parameter, the axis
list and the length list (spec/30_encoding.md rules R73 to R76), axis canonicalisation (spec/42_dct2_1d_engine.md rule R130),
and the checks in the fixed order of spec/60_exceptions.md rule R229. No check looks at an element value. -/

namespace Sys2Proof.Machine

/-- The decoded `norm` parameter of a command (rule R74). -/
inductive Norm where
  | none
  | ortho
deriving DecidableEq, Repr

/-- `NORM`: 0 is absent, 1 is the orthonormal marker, 2 and 3 are unrecognised (rule R74). -/
def Norm.ofField (v : BitVec 2) : Option Norm :=
  if v = 0#2 then some .none else if v = 1#2 then some .ortho else Option.none

/-- An `AXISj` register as a signed axis: `sext_32` (rules R7, R25). -/
def axisValue (v : Word) : Int := v.toInt

/-- A `LENj` register as an unsigned length: `zext_32` (rules R7, R26). -/
def lenValue (v : Word) : Nat := v.toNat

/-- The raw axis of `DCT` and `IDCT`: `AXIS0`, or `-1` when `AG = 0` (rule R75). -/
def axisRaw1 (f : Fields) (axis : Vector Word 8) : Int :=
  if f.ag then axisValue axis[0] else -1

/-- The raw axis list of `DCTN` and `IDCTN` on an array of rank `r`: `AXIS0..AXIS(NAX-1)`, or all axes in order when `AG = 0`
(rules R75, R165). -/
def axesRaw (f : Fields) (axis : Vector Word 8) (r : Nat) : List Int :=
  if f.ag then (axis.toList.take f.nax.toNat).map axisValue else (List.range r).map Int.ofNat

/-- The length list `LEN0..LEN(NLEN-1)`, or absent when `LG = 0` (rule R76). -/
def lensOf (f : Fields) (len : Vector Word 8) : Option (List Nat) :=
  if f.lg then some ((len.toList.take f.nlen.toNat).map lenValue) else none

/-- `canon(a, r)` (rule R130): a raw axis in `[-r, r-1]` as an axis in `0..r-1`; none is the error `E_AXIS`. -/
def canon (a : Int) (r : Nat) : Option Nat :=
  if 0 ≤ a ∧ a ≤ (r : Int) - 1 then some a.toNat
  else if -(r : Int) ≤ a ∧ a ≤ -1 then some ((r : Int) + a).toNat
  else none

/-- Canonicalises a list of raw axes in list order; none as soon as one entry fails (rules R166, R223). -/
def canonAll : List Int → Nat → Option (List Nat)
  | [], _ => some []
  | a :: as, r =>
    match canon a r with
    | none => none
    | some c =>
      match canonAll as r with
      | none => none
      | some cs => some (c :: cs)

/-- The shape `sh` with extent `lens[j]` on axis `axes[j]` for every `j` (rules R132, R166). -/
def setExtents : List Nat → List Nat → List Nat → List Nat
  | sh, a :: axes, n :: lens => setExtents (sh.set a n) axes lens
  | sh, _, _ => sh

/-- Steps 1 to 3 of rule R229, on the word alone: legality (R225), type (R221), norm (R224). -/
def checkWord (legal : Bool) (f : Fields) : Except Cause Norm :=
  if legal = false then .error .eIllegal
  else if f.type ≠ 2#4 then .error .eType
  else
    match Norm.ofField f.norm with
    | none => .error .eNorm
    | some nm => .ok nm

/-- Step 4 of rule R229: the source array, read whole; `E_EMPTY` if there is none (rule R226). -/
def checkSource {α : Type} : AReg α → Except Cause (TArray α)
  | .empty => .error .eEmpty
  | .array x => .ok x

/-- The target length of `DCT` and `IDCT` on axis `a`: `LEN0` when `LG = 1`, else the axis' own extent (rules R76, R133). -/
def targetLen (f : Fields) (len : Vector Word 8) (sh : List Nat) (a : Nat) : Nat :=
  if f.lg then lenValue len[0] else sh.getD a 0

/-- Steps 7, 9 and 10 of rule R229 for `DCT` and `IDCT` on a source of shape `sh` (rules R137, R153): the canonical axis and
the target length. -/
def check1 (maxElems : Option Nat) (f : Fields) (axis len : Vector Word 8) (sh : List Nat) : Except Cause (Nat × Nat) :=
  match canon (axisRaw1 f axis) sh.length with
  | none => .error .eAxis
  | some a =>
    if f.lg = true ∧ targetLen f len sh a = 0 then .error .eShape
    else if fits maxElems (shapeSize (sh.set a (targetLen f len sh a))) = false then .error .eCap
    else .ok (a, targetLen f len sh a)

/-- The number of axes of `DCTN` and `IDCTN` on a source of rank `r`: `NAX`, or `r` when `AG = 0` (rule R165). -/
def axisCountOf (f : Fields) (r : Nat) : Nat :=
  if f.ag then f.nax.toNat else r

/-- The adapted shape of `DCTN` and `IDCTN`: the listed extents when `LG = 1`, else the shape itself (rule R166). -/
def adaptedShape (sh axes : List Nat) : Option (List Nat) → List Nat
  | some lens => setExtents sh axes lens
  | none => sh

/-- Steps 5 to 10 of rule R229 for `DCTN` and `IDCTN` on a source of shape `sh` (rule R166): the canonical axes and the target
lengths, absent when `LG = 0`. -/
def checkN (maxElems : Option Nat) (f : Fields) (axis len : Vector Word 8) (sh : List Nat) :
    Except Cause (List Nat × Option (List Nat)) :=
  if f.ag = true ∧ f.nax.toNat = 0 then .error .eShape
  else if f.ag = true ∧ f.nax.toNat > sh.length then .error .eShape
  else if f.lg = true ∧ f.nlen.toNat ≠ axisCountOf f sh.length then .error .eShape
  else
    match canonAll (axesRaw f axis sh.length) sh.length with
    | none => .error .eAxis
    | some axes =>
      if ¬ axes.Nodup then .error .eAxis
      else if 0 ∈ (lensOf f len).getD [] then .error .eShape
      else if fits maxElems (shapeSize (adaptedShape sh axes (lensOf f len))) = false then .error .eCap
      else .ok (axes, lensOf f len)

end Sys2Proof.Machine
end

