-- ==== Sys2Proof/Machine/FftPort.lean ====
section
/-! DEFINITION. The port to the FFT collaborator and the complex arithmetic on top of the numerics record
(spec/46_fft_port.md). The collaborator is a function of the record: it has no state and it always returns (rule R207). What
the block assumes of a correct one is stated as three named properties (rule R206), which the machine never uses and a claim
takes as a premise by name. -/

namespace Sys2Proof.Machine

/-- `promote(v) = v + i·0` (spec/00_scope.md section 5.3, rule R10). -/
def promote {α : Type} (num : Numerics α) (v : α) : Cx α :=
  { re := v, im := num.zero }

/-- `(a,b) + (c,d) = (a+c, b+d)` (rule R200). -/
def Cx.add {α : Type} (num : Numerics α) (x y : Cx α) : Cx α :=
  { re := num.add x.re y.re, im := num.add x.im y.im }

/-- `(a,b)·(c,d) = (ac-bd, ad+bc)` (rule R200). -/
def Cx.mul {α : Type} (num : Numerics α) (x y : Cx α) : Cx α :=
  { re := num.sub (num.mul x.re y.re) (num.mul x.im y.im)
    im := num.add (num.mul x.re y.im) (num.mul x.im y.re) }

/-- `(a,b)/(c,d) = ((ac+bd)/(c²+d²), (bc-ad)/(c²+d²))` (rule R200). -/
def Cx.div {α : Type} (num : Numerics α) (x y : Cx α) : Cx α :=
  let den := num.add (num.mul y.re y.re) (num.mul y.im y.im)
  { re := num.div (num.add (num.mul x.re y.re) (num.mul x.im y.im)) den
    im := num.div (num.sub (num.mul x.im y.re) (num.mul x.re y.im)) den }

/-- The complex conjugate (rules R122, R123). -/
def Cx.conj {α : Type} (num : Numerics α) (x : Cx α) : Cx α :=
  { re := x.re, im := num.neg x.im }

/-- The sum of a finite sequence of complex values, from 0 in index order. -/
def Cx.sum {α : Type} (num : Numerics α) (N : Nat) (f : Fin N → Cx α) : Cx α :=
  (List.finRange N).foldl (fun acc n => Cx.add num acc (f n)) (promote num num.zero)

/-- The sum of rule R203, `Σ_n z_n · exp(-2·pi·i·n·k/N)`, in the record's own arithmetic: `exp(-2·pi·i·n·k/N)` is
`W(N, 4·n·k)` by rule R120. -/
def dft {α : Type} (num : Numerics α) (N : Nat) (z : Fin N → Cx α) (k : Fin N) : Cx α :=
  Cx.sum num N fun n => Cx.mul num (z n) (num.twiddle N (4 * (n.val : Int) * (k.val : Int)))

/-- The sum of rule R204, `(1/N) · Σ_k Z_k · exp(+2·pi·i·n·k/N)`, in the record's own arithmetic. -/
def idft {α : Type} (num : Numerics α) (N : Nat) (Z : Fin N → Cx α) (n : Fin N) : Cx α :=
  Cx.mul num (promote num (num.div (num.ofNat 1) (num.ofNat N)))
    (Cx.sum num N fun k => Cx.mul num (Z k) (num.twiddle N (-(4 * (n.val : Int) * (k.val : Int)))))

/-- `fft_is_dft`: the collaborator's FFT is the sum of rule R203 (rule R206). -/
def FftIsDft {α : Type} (num : Numerics α) : Prop :=
  ∀ N z k, num.fft N z k = dft num N z k

/-- `ifft_is_idft`: the collaborator's inverse FFT is the sum of rule R204 (rule R206). -/
def IfftIsIdft {α : Type} (num : Numerics α) : Prop :=
  ∀ N Z n, num.ifft N Z n = idft num N Z n

/-- `fft2_is_fft_fft`: the collaborator's plane FFT is two line FFTs, in either order (rules R205, R206). -/
def Fft2IsFftFft {α : Type} (num : Numerics α) : Prop :=
  ∀ N1 N2 z k1 k2,
    num.fft2 N1 N2 z k1 k2 = num.fft N1 (fun n1 => num.fft N2 (z n1) k2) k1 ∧
      num.fft2 N1 N2 z k1 k2 = num.fft N2 (fun n2 => num.fft N1 (fun n1 => z n1 n2) k1) k2

end Sys2Proof.Machine
end

