-- ==== Sys2Proof/Machine/Twiddle.lean ====
section
/-! DEFINITION. The unit `twiddle_factor_generator` (spec/41_twiddle_factor_generator.md). -/

namespace Sys2Proof.Machine

/-- `W(N, k) = exp(-i·pi·k/(2N))`, the value the numerics record gives it (rules R120, R124). The 2-D path also calls it with
negated `k` (rule R122). -/
def W {α : Type} (num : Numerics α) (N : Nat) (k : Int) : Cx α :=
  num.twiddle N k

/-- Multiplication of a line by the twiddle array of its axis: position `k` by `W(N, k)` (rule R121). -/
def twiddleMul {α : Type} (num : Numerics α) (N : Nat) (z : Fin N → Cx α) (k : Fin N) : Cx α :=
  Cx.mul num (z k) (W num N k.val)

/-- Division of a line by the twiddle array of its axis: position `k` by `W(N, k)`, by complex division (rules R121, R123). -/
def twiddleDiv {α : Type} (num : Numerics α) (N : Nat) (z : Fin N → Cx α) (k : Fin N) : Cx α :=
  Cx.div num (z k) (W num N k.val)

end Sys2Proof.Machine
end

