-- ==== Sys2Proof/Machine/Dct.lean ====
section
/-! DEFINITION. The unit `dct2_1d_engine` (spec/42_dct2_1d_engine.md): shape adaptation, the forward 1-D kernel and the command
`DCT`. -/

namespace Sys2Proof.Machine

/-- The array of shape `sh` that agrees with `x` at the multi-indices `x` has and is 0 elsewhere: the pad and truncate of
rules R131 and R132 in their index form. -/
def refit {α : Type} (num : Numerics α) (x : TArray α) (sh : List Nat) : TArray α :=
  TArray.build sh (x.at num.zero)

/-- `ADAPT(x, a, n)`: axis `a` padded with trailing zeros or truncated to length `n` (rule R131). -/
def adapt {α : Type} (num : Numerics α) (x : TArray α) (a n : Nat) : TArray α :=
  refit num x (x.shape.set a n)

/-- `ADAPTN(x, axes, lens)`: every listed axis at once (rule R132). -/
def adaptN {α : Type} (num : Numerics α) (x : TArray α) (axes lens : List Nat) : TArray α :=
  refit num x (setExtents x.shape axes lens)

/-- `DCT1` on a line (rule R134): interleave, FFT, twiddle multiply, real part times 2. -/
def dct1 {α : Type} (num : Numerics α) (N : Nat) (x : Fin N → α) (k : Fin N) : α :=
  let v := ilv N x
  let V := num.fft N fun j => promote num (v j)
  let C := twiddleMul num N V
  num.mul (num.ofNat 2) (C k).re

/-- `DCT1_a(x) = along(a, DCT1, x)` (rule R140). -/
def dct1Along {α : Type} (num : Numerics α) (a : Nat) (x : TArray α) : TArray α :=
  along num.zero a (dct1 num) x

/-- `FWD1(x, a, norm)`: the forward 1-D transform with its optional normalisation pass (rules R136, R168). -/
def fwd1 {α : Type} (num : Numerics α) (nm : Norm) (a : Nat) (x : TArray α) : TArray α :=
  match nm with
  | .none => dct1Along num a x
  | .ortho => nrmAlong num a (dct1Along num a x)

/-- A command along one axis: the checks of rule R229 in order, then adaptation, then the kernel (rules R137, R141, R153). -/
def command1 {α : Type} (p : Params α) (legal : Bool) (kernel : Norm → Nat → TArray α → TArray α) (f : Fields)
    (axis len : Vector Word 8) (src : AReg α) : Except Cause (TArray α) :=
  match checkWord legal f with
  | .error e => .error e
  | .ok nm =>
    match checkSource src with
    | .error e => .error e
    | .ok x =>
      match check1 p.maxElems f axis len x.shape with
      | .error e => .error e
      | .ok (a, n) => .ok (kernel nm a (adapt p.num x a n))

/-- The result or the error of `DCT`, a function of the word, the descriptor registers, the source and the configuration
(rules R35, R137). -/
def dctCommand {α : Type} (p : Params α) (f : Fields) (axis len : Vector Word 8) (src : AReg α) :
    Except Cause (TArray α) :=
  command1 p (Instr.dct f).wf (fwd1 p.num) f axis len src

/-- `DCT` on an engine of any configuration (rule R137). -/
def Engine.dct {Re : Type} (p : Params Re) (f : Fields) (s : Engine Re) : Engine Re :=
  s.finish f.rd (dctCommand p f s.axis s.len (s.readA f.rs))

/-- `DCT` (rule R137). -/
def execDct (f : Fields) (s : State) : Host.Outcome State Fault Refusal :=
  .next { s with toEngine := s.toEngine.dct Config.params f }

end Sys2Proof.Machine
end

