-- ==== Sys2Proof/Machine/Idct.lean ====
section
/-! DEFINITION. The unit `idct2_1d_engine` (spec/43_idct2_1d_engine.md): the inverse 1-D kernel and the command `IDCT`. -/

namespace Sys2Proof.Machine

/-- The number of de-normalisation passes of the inverse: 2 when `norm` is absent, 1 when it is orthonormal (rules R151,
R192; conflict C1 of spec/90_conflicts.md). -/
def passes : Norm → Nat
  | .none => 2
  | .ortho => 1

/-- `IDCT1` on a line (rule R150): the normalisation passes, promotion, division by the twiddle factor, times `2N`, inverse
FFT, real part, de-interleave. The real factor `2N` enters the complex product promoted (log entry 10). -/
def idct1 {α : Type} (num : Numerics α) (nm : Norm) (N : Nat) (X : Fin N → α) : Fin N → α :=
  let y := nrmPasses num N (passes nm) X
  let D := twiddleDiv num N fun k => promote num (y k)
  let Z := fun k => Cx.mul num (D k) (promote num (num.ofNat (2 * N)))
  let z := num.ifft N Z
  dilv N fun j => (z j).re

/-- `IDCT1_a(X, norm) = along(a, IDCT1(·, norm), X)` (rule R154). -/
def idct1Along {α : Type} (num : Numerics α) (nm : Norm) (a : Nat) (X : TArray α) : TArray α :=
  along num.zero a (idct1 num nm) X

/-- The result or the error of `IDCT` (rules R35, R153). -/
def idctCommand {α : Type} (p : Params α) (f : Fields) (axis len : Vector Word 8) (src : AReg α) :
    Except Cause (TArray α) :=
  command1 p (Instr.idct f).wf (idct1Along p.num) f axis len src

/-- `IDCT` on an engine of any configuration (rule R153). -/
def Engine.idct {Re : Type} (p : Params Re) (f : Fields) (s : Engine Re) : Engine Re :=
  s.finish f.rd (idctCommand p f s.axis s.len (s.readA f.rs))

/-- `IDCT` (rule R153). -/
def execIdct (f : Fields) (s : State) : Host.Outcome State Fault Refusal :=
  .next { s with toEngine := s.toEngine.idct Config.params f }

end Sys2Proof.Machine
end

