-- ==== Sys2Proof/Machine/Compositor.lean ====
section
/-! DEFINITION. The unit `dct_nd_compositor` (spec/44_dct_nd_compositor.md): the 2-D fast path, the forward and the inverse
composition over a list of axes, and the commands `DCTN` and `IDCTN`. -/

namespace Sys2Proof.Machine

/-- `MIRROR_q` on a plane: position `k2` of the second axis takes position `(N2 - k2) mod N2` (rule R171). -/
def mirror {α : Type} (N1 N2 : Nat) (V : Fin N1 → Fin N2 → Cx α) (k1 : Fin N1) (k2 : Fin N2) : Cx α :=
  V k1 ⟨(N2 - k2.val) % N2, Nat.mod_lt _ k2.pos⟩

/-- The kernel of the 2-D fast path on a plane whose first axis is "axis 1" and whose second is "axis 2" (rule R170): both
axes interleaved, one plane FFT, the twiddle combination with the mirrored spectrum, real part times 2. -/
def dct2 {α : Type} (num : Numerics α) (N1 N2 : Nat) (x : Fin N1 → Fin N2 → α) (k1 : Fin N1) (k2 : Fin N2) : α :=
  let v := fun j1 => ilv N2 fun j2 => ilv N1 (fun n1 => x n1 j2) j1
  let V := num.fft2 N1 N2 fun j1 j2 => promote num (v j1 j2)
  let M := mirror N1 N2 V
  let C := Cx.mul num (W num N1 k1.val)
    (Cx.add num (Cx.mul num (W num N2 k2.val) (V k1 k2)) (Cx.mul num (W num N2 (-(k2.val : Int))) (M k1 k2)))
  num.mul (num.ofNat 2) C.re

/-- `DCT2D(x, p, q, norm)` (rules R170, R174). -/
def dct2d {α : Type} (num : Numerics α) (nm : Norm) (p q : Nat) (x : TArray α) : TArray α :=
  match nm with
  | .none => alongPlane num.zero p q (dct2 num) x
  | .ortho => nrmAlong num q (nrmAlong num p (alongPlane num.zero p q (dct2 num) x))

/-- `FWD(x, axes, norm)` (rules R168, R169): one axis by the 1-D engine, two by the 2-D fast path, more by consecutive pairs
in list order with an odd last axis on its own. -/
def fwd {α : Type} (num : Numerics α) (nm : Norm) : List Nat → TArray α → TArray α
  | [], y => y
  | [a], y => fwd1 num nm a y
  | p :: q :: axes, y => fwd num nm axes (dct2d num nm p q y)

/-- `INV(x, axes, norm)` (rule R176): the inverse 1-D transform along each axis in list order. -/
def inv {α : Type} (num : Numerics α) (nm : Norm) : List Nat → TArray α → TArray α
  | [], y => y
  | a :: axes, y => inv num nm axes (idct1Along num nm a y)

/-- The combined adaptation of rule R167, before any transform runs; none when `LG = 0`. -/
def adaptAll {α : Type} (num : Numerics α) (x : TArray α) (axes : List Nat) : Option (List Nat) → TArray α
  | some lens => adaptN num x axes lens
  | none => x

/-- A command over a list of axes: the checks of rule R229 in order, then adaptation, then the composition (rules R175,
R177). -/
def commandN {α : Type} (p : Params α) (legal : Bool) (kernel : Norm → List Nat → TArray α → TArray α) (f : Fields)
    (axis len : Vector Word 8) (src : AReg α) : Except Cause (TArray α) :=
  match checkWord legal f with
  | .error e => .error e
  | .ok nm =>
    match checkSource src with
    | .error e => .error e
    | .ok x =>
      match checkN p.maxElems f axis len x.shape with
      | .error e => .error e
      | .ok (axes, lens) => .ok (kernel nm axes (adaptAll p.num x axes lens))

/-- The result or the error of `DCTN` (rules R35, R175). -/
def dctnCommand {α : Type} (p : Params α) (f : Fields) (axis len : Vector Word 8) (src : AReg α) :
    Except Cause (TArray α) :=
  commandN p (Instr.dctn f).wf (fwd p.num) f axis len src

/-- `DCTN` on an engine of any configuration (rule R175). -/
def Engine.dctn {Re : Type} (p : Params Re) (f : Fields) (s : Engine Re) : Engine Re :=
  s.finish f.rd (dctnCommand p f s.axis s.len (s.readA f.rs))

/-- `DCTN` (rule R175). -/
def execDctn (f : Fields) (s : State) : Host.Outcome State Fault Refusal :=
  .next { s with toEngine := s.toEngine.dctn Config.params f }

/-- The result or the error of `IDCTN` (rules R35, R177). -/
def idctnCommand {α : Type} (p : Params α) (f : Fields) (axis len : Vector Word 8) (src : AReg α) :
    Except Cause (TArray α) :=
  commandN p (Instr.idctn f).wf (inv p.num) f axis len src

/-- The result or the error of any command: what claims about all four commands at once are stated with (rule R35). -/
def commandResult {α : Type} (p : Params α) (i : Instr) (axis len : Vector Word 8) (src : AReg α) :
    Except Cause (TArray α) :=
  match i with
  | .dct f => dctCommand p f axis len src
  | .idct f => idctCommand p f axis len src
  | .dctn f => dctnCommand p f axis len src
  | .idctn f => idctnCommand p f axis len src

/-- `IDCTN` on an engine of any configuration (rule R177). -/
def Engine.idctn {Re : Type} (p : Params Re) (f : Fields) (s : Engine Re) : Engine Re :=
  s.finish f.rd (idctnCommand p f s.axis s.len (s.readA f.rs))

/-- `IDCTN` (rule R177). -/
def execIdctn (f : Fields) (s : State) : Host.Outcome State Fault Refusal :=
  .next { s with toEngine := s.toEngine.idctn Config.params f }

end Sys2Proof.Machine
end

