-- ==== Sys2Proof/Machine/Dispatch.lean ====
section
/-! DEFINITION. One arm per command (spec/30_encoding.md rule R72). -/

namespace Sys2Proof.Machine

/-- The effect of a command once its word is stored in `CMD`: `execute(w)` of rule R24, for a word that spells `i`. -/
def exec (i : Instr) (s : State) : Host.Outcome State Fault Refusal :=
  match i with
  | .dct f => Sys2Proof.Machine.execDct f s
  | .idct f => Sys2Proof.Machine.execIdct f s
  | .dctn f => Sys2Proof.Machine.execDctn f s
  | .idctn f => Sys2Proof.Machine.execIdctn f s

end Sys2Proof.Machine
end

