-- ==== Sys2Proof/Machine/Actions.lean ====
section
/-! DEFINITION. The host's actions (spec/10_state.md rules R22 to R32, spec/20_memory.md rule R54, spec/60_exceptions.md rules
R231, R232, R237, spec/70_reset_and_hazards.md rule R260): what one action does, a write to `CMD` running one whole command
atomically (rule R58). -/

namespace Sys2Proof.Machine

/-! ### This machine -/

/-- `execute(w)` (rule R24): the command the word spells, or fault entry with `E_ILLEGAL` for an illegal word (rules R80,
R225). -/
def execute (w : Word) (s : State) : Host.Outcome State Fault Refusal :=
  match decode w with
  | .ok i => exec i s
  | .error _ => .next { s with toEngine := s.toEngine.raise .eIllegal }

/-- A host write of `w` to `CMD` (rule R24): discarded while `FAULT` = 1 (rule R232), else stored and executed. -/
def issue (w : Word) (s : State) : Host.Outcome State Fault Refusal :=
  if s.fault then .next s else execute w { s with cmd := w }

/-- Reset (rules R36, R260): every piece of the engine's state at its reset value. What the host will do and what it has read
are no state of the engine and stay (log entry 17). -/
def State.resetEngine (s : State) : State :=
  { s with toEngine := Engine.reset }

/-- One host action. Each is a single atomic step (rules R54, R58). -/
def perform (a : HostAction Elem) (s : State) : Host.Outcome State Fault Refusal :=
  match a with
  | .loadArray i v =>
    if v.wf Config.maxElems then .next { s with toEngine := s.toEngine.writeA i (.array v) } else .refused .notAMove
  | .readArray i => .next (s.record (.array i (s.readA i)))
  | .writeReg .cmd w => issue w s
  | .writeReg r v => .next { s with toEngine := s.toEngine.storeReg r v }
  | .readReg r => .next (s.record (.word r (s.readReg r)))
  | .reset => .next s.resetEngine

/-- One step of the machine: the host's next action (decision D1). When the host issues none, nothing changes: the engine has
no work of its own and never halts by itself (rules R242, R270; log entry 1). -/
def hostStep (s : State) : Host.Outcome State Fault Refusal :=
  match s.pending with
  | [] => .next s
  | a :: rest => perform a { s with pending := rest }

/-- `s` with a `CMD` write of the word `w` (its low `nbits` bits) as the host's next action. A `CMD` write is discarded while
`FAULT` = 1 (rule R232), so the fault is acknowledged as well (log entry 13). -/
def placeWord (s : State) (nbits w : Nat) : State :=
  { s with toEngine := s.toEngine.acknowledge, pending := .writeReg .cmd (BitVec.ofNat 32 (w % 2 ^ nbits)) :: s.pending }

/-! ### An engine of any configuration (rules R6, R20): the same machine as a function of its configuration record -/

/-- A command on an engine of any configuration. -/
def Engine.command {Re : Type} (p : Params Re) (i : Instr) (s : Engine Re) : Engine Re :=
  match i with
  | .dct f => s.dct p f
  | .idct f => s.idct p f
  | .dctn f => s.dctn p f
  | .idctn f => s.idctn p f

/-- A host write of `w` to `CMD` of an engine of any configuration (rules R24, R225, R232). -/
def Engine.issue {Re : Type} (p : Params Re) (w : Word) (s : Engine Re) : Engine Re :=
  if s.fault then s
  else
    match decode w with
    | .ok i => { s with cmd := w }.command p i
    | .error _ => { s with cmd := w }.raise .eIllegal

/-- One host action on an engine of any configuration: the engine after it and the value a read returns, or nothing for a load
of a value no array register can hold, which is no move (rule R23). -/
def Engine.act {Re : Type} (p : Params Re) (a : HostAction Re) (s : Engine Re) : Option (Engine Re × Option (ReadValue Re)) :=
  match a with
  | .loadArray i v => if v.wf p.maxElems then some (s.writeA i (.array v), none) else none
  | .readArray i => some (s, some (.array i (s.readA i)))
  | .writeReg .cmd w => some (s.issue p w, none)
  | .writeReg r v => some (s.storeReg r v, none)
  | .readReg r => some (s, some (.word r (s.readReg r)))
  | .reset => some (Engine.reset, none)

end Sys2Proof.Machine
end

