-- ==== Sys2Proof/Machine/Step.lean ====
section
/-! DEFINITION. The step of the machine, and the placing of a command word as the next thing the machine runs. -/

namespace Sys2Proof.Machine

/-- One step: one host action, a whole command when it is a `CMD` write (decision D1, rules R24, R58). -/
def step (s : State) : Host.Outcome State Fault Refusal :=
  hostStep s

/-- `s` with the word `w` (its low `nbits` bits) written to `CMD` by the very next step. -/
def State.withFetchWord (s : State) (nbits w : Nat) : State :=
  placeWord s nbits w

end Sys2Proof.Machine
end

