-- ==== Sys2Proof/Machine/Assembler.lean ====
section
/-! DEFINITION. The assembler statements and the host actions each expands to (spec/30_encoding.md rules R70, R81, R82). -/

namespace Sys2Proof.Machine

/-- A statement (rules R81, R82). An omitted keyword is `none`; `ortho` is `norm=orthonormal`. -/
inductive Stmt where
  /-- `dct Ad, As [, type=T] [, n=L] [, axis=a] [, norm=orthonormal]` -/
  | dct (d s : Fin 4) (type : Option (BitVec 4)) (n : Option Word) (axis : Option Int) (ortho : Bool)
  | idct (d s : Fin 4) (type : Option (BitVec 4)) (n : Option Word) (axis : Option Int) (ortho : Bool)
  /-- `dctn Ad, As [, type=T] [, s=(L0,...)] [, axes=(a0,...)] [, norm=orthonormal]` -/
  | dctn (d s : Fin 4) (type : Option (BitVec 4)) (lens : Option (List Word)) (axes : Option (List Int)) (ortho : Bool)
  | idctn (d s : Fin 4) (type : Option (BitVec 4)) (lens : Option (List Word)) (axes : Option (List Int)) (ortho : Bool)
  /-- `.cmd 0xXXXXXXXX` -/
  | cmd (w : Word)
  /-- `load Ai, <array>` -/
  | load (i : Fin 4) (v : TArray Elem)
  /-- `read Ai` -/
  | read (i : Fin 4)
  | fclr
  | rdst
  | rdseq
  | reset
deriving DecidableEq, Repr

/-- A signed axis `-2^31..2^31-1` as a 32-bit two's complement word (rule R81). -/
def axisWord (a : Int) : Option Word :=
  if -2 ^ 31 ≤ a ∧ a < 2 ^ 31 then some (BitVec.ofInt 32 a) else none

/-- `WriteReg(AXISj, aj)` for the entries of an axis list from `j` on; none when an entry is out of range or has no
register. -/
def axisWrites : Nat → List Int → Option (List (HostAction Elem))
  | _, [] => some []
  | j, a :: as =>
    if h : j < 8 then
      match axisWord a, axisWrites (j + 1) as with
      | some w, some ws => some (.writeReg (.axis ⟨j, h⟩) w :: ws)
      | _, _ => none
    else none

/-- `WriteReg(LENj, Lj)` for the entries of a length list from `j` on; none when an entry has no register. -/
def lenWrites : Nat → List Word → Option (List (HostAction Elem))
  | _, [] => some []
  | j, n :: ns =>
    if h : j < 8 then
      match lenWrites (j + 1) ns with
      | some ws => some (.writeReg (.len ⟨j, h⟩) n :: ws)
      | none => none
    else none

/-- The fields of the command word a statement assembles (rules R71, R73, R74, R81): `TYPE` is 2 when not given. -/
def assembleFields (d s : Fin 4) (type : Option (BitVec 4)) (lens : Option (List Word)) (axes : Option (List Int))
    (ortho : Bool) : Fields where
  type := type.getD 2#4
  norm := if ortho then 1#2 else 0#2
  lg := lens.isSome
  ag := axes.isSome
  nax := BitVec.ofNat 4 (axes.getD []).length
  nlen := BitVec.ofNat 4 (lens.getD []).length
  rs := s
  rd := d

/-- A command statement's host actions in order: the axis writes, the length writes, the `CMD` write last (rule R81). -/
def expandCommand (i : Instr) (lens : Option (List Word)) (axes : Option (List Int)) : Option (List (HostAction Elem)) :=
  match axisWrites 0 (axes.getD []), lenWrites 0 (lens.getD []) with
  | some aw, some lw => some (aw ++ lw ++ [.writeReg .cmd (encode i)])
  | _, _ => none

/-- The host actions a statement expands to; none for a statement the syntax does not have: an axis out of range, more than
eight entries, or the empty tuple for `s` (rule R81 allows it for `axes` only; log entry 16). -/
def Stmt.expand : Stmt → Option (List (HostAction Elem))
  | .dct d s t n a o =>
    let lens := n.map fun l => [l]
    let axes := a.map fun x => [x]
    expandCommand (.dct (assembleFields d s t lens axes o)) lens axes
  | .idct d s t n a o =>
    let lens := n.map fun l => [l]
    let axes := a.map fun x => [x]
    expandCommand (.idct (assembleFields d s t lens axes o)) lens axes
  | .dctn d s t lens axes o =>
    if lens = some [] then none else expandCommand (.dctn (assembleFields d s t lens axes o)) lens axes
  | .idctn d s t lens axes o =>
    if lens = some [] then none else expandCommand (.idctn (assembleFields d s t lens axes o)) lens axes
  | .cmd w => some [.writeReg .cmd w]
  | .load i v => some [.loadArray i v]
  | .read i => some [.readArray i]
  | .fclr => some [.writeReg .fclr 0#32]
  | .rdst => some [.readReg .status]
  | .rdseq => some [.readReg .seq]
  | .reset => some [.reset]

end Sys2Proof.Machine
end

