-- ==== Sys2Proof/Machine/Ideal.lean ====
section
/-! DEFINITION. The ideal instance of the numerics record (spec/46_fft_port.md rules R201, R203 to R205): the carrier is the
real numbers, the arithmetic is exact, and the collaborator is the sums the spec writes out. The step does not use it. Claims
about the arithmetic of the units are stated in it, as the spec's equalities are. -/

namespace Sys2Proof.Machine

/-- A pair over the reals as a complex number. -/
noncomputable def toComplex (z : Cx ℝ) : ℂ := ⟨z.re, z.im⟩

/-- A complex number as a pair over the reals. -/
noncomputable def ofComplex (z : ℂ) : Cx ℝ := { re := z.re, im := z.im }

/-- The ideal instance (rule R201). -/
noncomputable def ideal : Numerics ℝ where
  zero := 0
  ofNat n := (n : ℝ)
  add := fun x y => x + y
  sub := fun x y => x - y
  mul := fun x y => x * y
  div := fun x y => x / y
  neg := fun x => -x
  sqrt := Real.sqrt
  twiddle N k := { re := Real.cos (Real.pi * k / (2 * N)), im := -Real.sin (Real.pi * k / (2 * N)) }
  fft N z k := ofComplex (∑ n : Fin N, toComplex (z n) * Complex.exp (-2 * Real.pi * Complex.I * n.val * k.val / N))
  ifft N Z n :=
    ofComplex (1 / N * ∑ k : Fin N, toComplex (Z k) * Complex.exp (2 * Real.pi * Complex.I * n.val * k.val / N))
  fft2 N1 N2 z k1 k2 :=
    ofComplex (∑ n1 : Fin N1, ∑ n2 : Fin N2, toComplex (z n1 n2) *
      Complex.exp (-2 * Real.pi * Complex.I * (n1.val * k1.val / N1 + n2.val * k2.val / N2)))

/-- The configuration of the ideal engine under a capacity: every claim about `Engine.act idealParams …` is one about the engine
whose `Num` is the ideal one (rules R6, R201). Its tolerance is 0, since it is the ideal. -/
noncomputable def idealParams (maxElems : Option Nat) (h : ∀ m, maxElems = some m → 1 ≤ m) : Params ℝ where
  maxElems := maxElems
  maxElems_pos := h
  num := ideal
  tol := 0

/-- An array with every element mapped. -/
def TArray.map {α β : Type} (g : α → β) (x : TArray α) : TArray β :=
  { shape := x.shape, data := x.data.map g }

/-- A result over some carrier agrees with a result of the ideal instance within `tol`: the same error, or the same shape
and every element within `tol` (rule R202). -/
def Within {α : Type} (val : α → ℝ) (tol : ℝ) : Except Cause (TArray α) → Except Cause (TArray ℝ) → Prop
  | .ok y, .ok y' => y.shape = y'.shape ∧ List.Forall₂ (fun u v => |val u - v| ≤ tol) y.data y'.data
  | .error e, .error e' => e = e'
  | _, _ => False

/-- A configuration is admissible on the inputs of interest when every result it gives for a command is within its `TOL` of
the result of the ideal numerics under the same capacity; `val` is the real number an element stands for (rule R202). -/
def Params.Admissible {Re : Type} (p : Params Re) (val : Re → ℝ) (inputs : TArray Re → Prop) : Prop :=
  ∀ (q : Params ℝ) (f : Fields) (axis len : Vector Word 8) (x : TArray Re), q.num = ideal → q.maxElems = p.maxElems →
    inputs x →
    Within val p.tol (dctCommand p f axis len (.array x)) (dctCommand q f axis len (.array (x.map val))) ∧
    Within val p.tol (idctCommand p f axis len (.array x)) (idctCommand q f axis len (.array (x.map val))) ∧
    Within val p.tol (dctnCommand p f axis len (.array x)) (dctnCommand q f axis len (.array (x.map val))) ∧
    Within val p.tol (idctnCommand p f axis len (.array x)) (idctnCommand q f axis len (.array (x.map val)))

end Sys2Proof.Machine
end

