-- ==== Sys2Proof/Safety.lean ====
section
/-! DEFINITION. What claims call a sound state and a run that went wrong. -/

namespace Sys2Proof.Machine

/-- The flags are consistent (spec/10_state.md rules R27, R33; spec/60_exceptions.md rule R220): `DONE` and `FAULT` are never
both 1, `ECODE` is 0 exactly when `FAULT` = 0, and `ECODE` is never `0x8..0xF`. -/
def State.flagsOk (s : State) : Bool :=
  !(s.done && s.fault) && (s.fault == !(s.ecode == 0#4)) && decide (s.ecode.toNat < 8)

/-- A sound state: every array register holds a legal value (rule R21) and the flags are consistent. -/
def State.Inv (s : State) : Prop :=
  Memory.wf Config.maxElems s.arrays = true ∧ s.flagsOk = true

/-- The host's next action is a `CMD` write that the pending fault discards (rules R232, R265). This is the one action counted as
proceeding without `FCLR`. DESIGN CHOICE, log entry 24. -/
def State.discards (s : State) : Bool :=
  match s.pending with
  | .writeReg .cmd _ :: _ => s.fault
  | _ => false

/-- A run of `k` steps from `s` has gone wrong (rule R270): a fault is pending at its end, or was pending at some point where
the host proceeded with a command without acknowledging it. DESIGN CHOICE: the rule says that software proceeded without
`FCLR` and names no action; the model counts the discarded `CMD` write of rule R265, which it cites, and no other action
under a pending fault (a read of `A[RD]` before reset, say). Log entry 24. -/
def GoneWrong (s : State) (k : Nat) : Prop :=
  (∃ t, core.run k s = .next t ∧ t.fault = true) ∨ ∃ j t, j < k ∧ core.run j s = .next t ∧ t.discards = true

end Sys2Proof.Machine
end

