-- ==== Sys2Proof/Certificates/Slice0/Obligations.lean ====
section
/-! DEFINITION. The statements for the provers, from the numbered rules of spec/: the command word, the host's actions, the
four commands and their errors, the invariant, the units, and the arithmetic in the ideal numerics. -/

open Sys2Proof Sys2Proof.Machine

/-! ### The command word -/

/-- R71, R72, R79: no bit of a legal command's encoding is dropped. -/
def Obligations.DecodeOfEncode : Prop :=
  ∀ i : Instr, i.wf = true → decode (encode i) = .ok i

/-- R71, R80: a word that decodes is the one word of its command, and the command is legal. -/
def Obligations.EncodeOfDecode : Prop :=
  ∀ (w : Word) (i : Instr), decode w = .ok i → encode i = w ∧ i.wf = true

/-- R79, R80: a word raises `E_ILLEGAL` exactly when one of L1 to L7 holds of its bits, whatever the state. -/
def Obligations.IllegalExactlyWhen : Prop :=
  ∀ (w : Word) (s : State),
    let opc := w.toNat % 16
    let lg := w.toNat / 2 ^ 10 % 2
    let ag := w.toNat / 2 ^ 11 % 2
    let nax := w.toNat / 2 ^ 12 % 16
    let nlen := w.toNat / 2 ^ 16 % 16
    execute w s = .next { s with toEngine := s.toEngine.raise .eIllegal } ↔
      (opc ≠ 1 ∧ opc ≠ 2 ∧ opc ≠ 3 ∧ opc ≠ 4) ∨ w.toNat / 2 ^ 24 ≠ 0 ∨ (ag = 0 ∧ nax ≠ 0) ∨ (lg = 0 ∧ nlen ≠ 0) ∨
        (nax > 8 ∨ nlen > 8) ∨ ((opc = 1 ∨ opc = 2) ∧ ag = 1 ∧ nax ≠ 1) ∨ ((opc = 1 ∨ opc = 2) ∧ lg = 1 ∧ nlen ≠ 1)

/-- Words of spec/30_encoding.md section 6 and spec/95_test_vectors.md section 2.9, one or more per command. -/
def Obligations.WordsOfTheSpecDecode : Prop :=
  decode 0x00401921#32 =
      .ok (.dct { type := 2, norm := 1, lg := false, ag := true, nax := 1, nlen := 0, rs := 0, rd := 1 }) ∧
    decode 0x00910522#32 =
      .ok (.idct { type := 2, norm := 1, lg := true, ag := false, nax := 0, nlen := 1, rs := 1, rd := 2 }) ∧
    decode 0x00422C23#32 =
      .ok (.dctn { type := 2, norm := 0, lg := true, ag := true, nax := 2, nlen := 2, rs := 0, rd := 1 }) ∧
    decode 0x00903824#32 =
      .ok (.idctn { type := 2, norm := 0, lg := false, ag := true, nax := 3, nlen := 0, rs := 1, rd := 2 }) ∧
    decode 0x01400021#32 = .error .reservedBits ∧ decode 0x00000000#32 = .error .opcode

/-- R81: a statement expands to one `AXISj` write per axis in order, then one `LENj` write per length in order, then the
`CMD` write of the word its fields assemble to, which decodes to the command the statement spells. A list statement has no
expansion when an axis is out of range, a list has more than eight entries, or `s` is the empty tuple (log entry 16). -/
def Obligations.StatementsAssemble : Prop :=
  ∀ (d s : Fin 4) (t : Option (BitVec 4)) (o : Bool) (lens : Option (List Word)) (axes : Option (List Int)),
    let f : Fields :=
      { type := t.getD 2#4, norm := if o then 1#2 else 0#2, lg := lens.isSome, ag := axes.isSome
        nax := BitVec.ofNat 4 (axes.getD []).length, nlen := BitVec.ofNat 4 (lens.getD []).length, rs := s, rd := d }
    let spelled : Prop :=
      (∀ a ∈ axes.getD [], -2 ^ 31 ≤ a ∧ a < 2 ^ 31) ∧ (axes.getD []).length ≤ 8 ∧ (lens.getD []).length ≤ 8
    let writes : List (HostAction Elem) :=
      List.zipWith (fun (j : Fin 8) (a : Int) => .writeReg (.axis j) (BitVec.ofInt 32 a)) (List.finRange 8) (axes.getD []) ++
        List.zipWith (fun (j : Fin 8) (n : Word) => .writeReg (.len j) n) (List.finRange 8) (lens.getD [])
    (spelled → lens ≠ some [] →
      (Stmt.dctn d s t lens axes o).expand = some (writes ++ [.writeReg .cmd (encode (.dctn f))]) ∧
      (Stmt.idctn d s t lens axes o).expand = some (writes ++ [.writeReg .cmd (encode (.idctn f))]) ∧
      decode (encode (.dctn f)) = .ok (.dctn f) ∧ decode (encode (.idctn f)) = .ok (.idctn f)) ∧
    (¬spelled ∨ lens = some [] →
      (Stmt.dctn d s t lens axes o).expand = none ∧ (Stmt.idctn d s t lens axes o).expand = none) ∧
    ∀ (n : Option Word) (a : Option Int), lens = n.map (fun l => [l]) → axes = a.map (fun x => [x]) → spelled →
      (Stmt.dct d s t n a o).expand = some (writes ++ [.writeReg .cmd (encode (.dct f))]) ∧
      (Stmt.idct d s t n a o).expand = some (writes ++ [.writeReg .cmd (encode (.idct f))]) ∧
      decode (encode (.dct f)) = .ok (.dct f) ∧ decode (encode (.idct f)) = .ok (.idct f)

/-! ### The step and the host's actions -/

/-- R24, R58: a `CMD` write of a word that spells a command, with no fault pending, stores the word and runs the command in
one step; around it the step only takes the action off the host's list.
The list of host actions is the model's own (log entry 1). -/
def Obligations.StepRunsCommand : Prop :=
  ∀ (s : State) (w : Word) (rest : List (HostAction Elem)) (i : Instr),
    s.pending = .writeReg .cmd w :: rest → s.fault = false → decode w = .ok i →
      step s = exec i { s with pending := rest, cmd := w }

/-- R24, R225: an illegal word is stored in `CMD` like a legal one and raises `E_ILLEGAL`.
The list of host actions is the model's own (log entry 1). -/
def Obligations.StepIllegalWord : Prop :=
  ∀ (s : State) (w : Word) (rest : List (HostAction Elem)) (e : Illegal),
    s.pending = .writeReg .cmd w :: rest → s.fault = false → decode w = .error e →
      step s = .next { s with pending := rest, cmd := w, fault := true, ecode := 5#4, done := false }

/-- R232: while `FAULT` = 1 a `CMD` write changes nothing, not even `CMD`.
The list of host actions is the model's own (log entry 1). -/
def Obligations.CmdWriteDiscarded : Prop :=
  ∀ (s : State) (w : Word) (rest : List (HostAction Elem)),
    s.pending = .writeReg .cmd w :: rest → s.fault = true → step s = .next { s with pending := rest }

/-- R28: a write of any value to `FCLR`, at offset `0x08`, clears `FAULT` and `ECODE` and changes nothing else, it changes nothing when
`FAULT` = 0, and a read of `FCLR` returns 0.
The record of reads is the model's own (log entry 2). -/
def Obligations.FclrAcknowledges : Prop :=
  Reg.fclr.offset = 0x08 ∧ ∀ (s : State) (v : Word),
    perform (.writeReg .fclr v) s = .next { s with fault := false, ecode := 0#4 } ∧
      (s.flagsOk = true → s.fault = false → perform (.writeReg .fclr v) s = .next s) ∧
      perform (.readReg .fclr) s = .next { s with reads := s.reads ++ [.word .fclr 0#32] }

/-- R36: the value of every piece of state after reset. -/
def Obligations.ResetValues : Prop :=
  (∀ i : Fin 4, State.reset.readA i = .empty) ∧ State.reset.cmd = 0#32 ∧ State.reset.statusWord = 0#32 ∧
    State.reset.done = false ∧ State.reset.fault = false ∧ State.reset.ecode = 0#4 ∧ State.reset.seq = 0#32 ∧
    (∀ j : Fin 8, State.reset.axis[j] = 0#32) ∧ ∀ j : Fin 8, State.reset.len[j] = 0#32

/-- R260: the reset action puts every piece of the engine's state at its reset value from any state. What the host has read
and will do is the model's own bookkeeping and is kept (log entry 17). -/
def Obligations.ResetAction : Prop :=
  ∀ s : State, perform .reset s = .next { State.reset with pending := s.pending, reads := s.reads }

/-- R22, R24 to R26, R32, R54: a read changes nothing but the record of what was read, and returns the register's value.
The record is the model's own (log entry 2). -/
def Obligations.ReadsHaveNoSideEffect : Prop :=
  ∀ s : State,
    (∀ i, perform (.readArray i) s = .next { s with reads := s.reads ++ [.array i s.arrays[i]] }) ∧
    (∀ r, perform (.readReg r) s = .next { s with reads := s.reads ++ [.word r (s.readReg r)] }) ∧
    s.readReg .cmd = s.cmd ∧ s.readReg .seq = s.seq ∧ s.readReg .fclr = 0#32 ∧
    (∀ j, s.readReg (.axis j) = s.axis[j]) ∧ ∀ j, s.readReg (.len j) = s.len[j]

/-- R27: the bits of `STATUS` as the host reads them. -/
def Obligations.StatusLayout : Prop :=
  ∀ s : State,
    s.readReg .status = s.statusWord ∧ s.statusWord.getLsbD 0 = s.done ∧ s.statusWord.getLsbD 1 = s.fault ∧
      s.statusWord.extractLsb' 2 2 = 0#2 ∧ s.statusWord.extractLsb' 4 4 = s.ecode ∧ s.statusWord.extractLsb' 8 24 = 0#24

/-- R25, R26, R27, R30, R32: a write to `AXISj` or `LENj` stores the value in that register and changes nothing else,
whatever `STATUS` holds, and the register reads back as written; writes to `STATUS` and `SEQ` change nothing. -/
def Obligations.RegisterWrites : Prop :=
  ∀ (s : State) (j : Fin 8) (v : Word),
    (∃ t, perform (.writeReg (.axis j) v) s = .next t ∧ t.axis[j] = v ∧ t.readReg (.axis j) = v ∧
      (∀ k : Fin 8, k ≠ j → t.axis[k] = s.axis[k] ∧ t.readReg (.axis k) = s.readReg (.axis k)) ∧
      t = { s with axis := t.axis }) ∧
    (∃ t, perform (.writeReg (.len j) v) s = .next t ∧ t.len[j] = v ∧ t.readReg (.len j) = v ∧
      (∀ k : Fin 8, k ≠ j → t.len[k] = s.len[k] ∧ t.readReg (.len k) = s.readReg (.len k)) ∧
      t = { s with len := t.len }) ∧
    perform (.writeReg .status v) s = .next s ∧ perform (.writeReg .seq v) s = .next s

/-- R23: a load of a legal value writes that array register and nothing else, whatever `STATUS` holds; a load of any other
value is no move of the machine.
That the model refuses the second kind is its own choice (log entry 7). -/
def Obligations.LoadArrayWrites : Prop :=
  ∀ (s : State) (i : Fin 4) (v : TArray Elem),
    (v.wf Config.maxElems = true → ∃ t, perform (.loadArray i v) s = .next t ∧ t.readA i = .array v ∧
      (∀ j, j ≠ i → t.readA j = s.readA j) ∧ t = { s with arrays := t.arrays }) ∧
    (v.wf Config.maxElems = false → perform (.loadArray i v) s = .refused .notAMove)

/-- R29, R53: the register map, one register per aligned offset of `0x00..0x4F` and nothing elsewhere. -/
def Obligations.RegisterMap : Prop :=
  (Reg.ofOffset? 0x00 = some .cmd ∧ Reg.ofOffset? 0x04 = some .status ∧ Reg.ofOffset? 0x08 = some .fclr ∧
    Reg.ofOffset? 0x0C = some .seq ∧ (∀ j : Fin 8, Reg.ofOffset? (0x10 + 4 * j.val) = some (.axis j)) ∧
    ∀ j : Fin 8, Reg.ofOffset? (0x30 + 4 * j.val) = some (.len j)) ∧
  (∀ r : Reg, r.offset % 4 = 0 ∧ r.offset < 0x50 ∧ Reg.ofOffset? r.offset = some r) ∧
    (∀ (off : Nat) (r : Reg), Reg.ofOffset? off = some r → r.offset = off) ∧
    ∀ off : Nat, Reg.ofOffset? off = none ↔ off % 4 ≠ 0 ∨ off ≥ 0x50

/-! ### The four commands -/

/-- R74: what `NORM` says when it is not refused: 0 is no normalisation, 1 is the orthonormal one. -/
def Sys2Proof.Machine.NormGiven (f : Fields) (nm : Norm) : Prop :=
  f.norm = 0#2 ∧ nm = .none ∨ f.norm = 1#2 ∧ nm = .ortho

/-- R75, R165: the raw axes of a list command on an array of rank `r`, entry by entry: entry `j` is `AXISj` read as signed for
`j < NAX` when axes are given, and `j` itself for `j < r` when they are not. -/
def Sys2Proof.Machine.AxesGiven (f : Fields) (axis : Vector Word 8) (r : Nat) (raws : List Int) : Prop :=
  (f.ag = true → raws.length = f.nax.toNat ∧ ∀ j : Fin 8, j.val < f.nax.toNat → raws[j.val]? = some axis[j].toInt) ∧
    (f.ag = false → raws.length = r ∧ ∀ j < r, raws[j]? = some (j : Int))

/-- R76: the target lengths of a list command, entry by entry: length `j` is `LENj` read as unsigned for `j < NLEN`, and there are
none when `LG` = 0. -/
def Sys2Proof.Machine.LensGiven (f : Fields) (len : Vector Word 8) (lens : Option (List Nat)) : Prop :=
  (f.lg = false → lens = none) ∧
    (f.lg = true → ∃ ls, lens = some ls ∧ ls.length = f.nlen.toNat ∧
      ∀ j : Fin 8, j.val < f.nlen.toNat → ls[j.val]? = some len[j].toNat)

/-- R130 on a raw axis in range: the axis itself, or the rank plus it when it is negative. -/
def Sys2Proof.Machine.axisOf (r : Nat) (a : Int) : Nat :=
  if 0 ≤ a then a.toNat else ((r : Int) + a).toNat

/-- R137, R74 to R76: `DCT` on operands that pass every check writes its result, sets `DONE` and counts.
That it ends rests on the collaborator returning (log entry 8). -/
def Obligations.DctCompletes : Prop :=
  ∀ (f : Fields) (s : State) (x : TArray Elem) (nm : Norm) (a n : Nat),
    (Instr.dct f).wf = true → f.type = 2#4 → NormGiven f nm → s.arrays[f.rs] = .array x →
    canon (if f.ag then s.axis[0].toInt else -1) x.shape.length = some a →
    n = (if f.lg then s.len[0].toNat else x.shape.getD a 0) → (f.lg = true → n ≠ 0) →
    fits Config.maxElems (shapeSize (x.shape.set a n)) = true →
      exec (.dct f) s = .next { s with
        arrays := s.arrays.set f.rd (.array (fwd1 Config.num nm a (adapt Config.num x a n)))
        done := true
        seq := s.seq + 1#32 }

/-- R153, R74 to R76: `IDCT` on operands that pass every check writes its result, sets `DONE` and counts.
That it ends rests on the collaborator returning (log entry 8). -/
def Obligations.IdctCompletes : Prop :=
  ∀ (f : Fields) (s : State) (x : TArray Elem) (nm : Norm) (a n : Nat),
    (Instr.idct f).wf = true → f.type = 2#4 → NormGiven f nm → s.arrays[f.rs] = .array x →
    canon (if f.ag then s.axis[0].toInt else -1) x.shape.length = some a →
    n = (if f.lg then s.len[0].toNat else x.shape.getD a 0) → (f.lg = true → n ≠ 0) →
    fits Config.maxElems (shapeSize (x.shape.set a n)) = true →
      exec (.idct f) s = .next { s with
        arrays := s.arrays.set f.rd (.array (idct1Along Config.num nm a (adapt Config.num x a n)))
        done := true
        seq := s.seq + 1#32 }

/-- R175, R74 to R76, R165 to R167: `DCTN` on operands that pass every check writes its result, sets `DONE` and counts.
That it ends rests on the collaborator returning (log entry 8). -/
def Obligations.DctnCompletes : Prop :=
  ∀ (f : Fields) (s : State) (x x1 : TArray Elem) (nm : Norm) (raws : List Int) (axes : List Nat) (lens : Option (List Nat)),
    (Instr.dctn f).wf = true → f.type = 2#4 → NormGiven f nm → s.arrays[f.rs] = .array x →
    AxesGiven f s.axis x.shape.length raws → LensGiven f s.len lens →
    (f.ag = true → 1 ≤ f.nax.toNat ∧ f.nax.toNat ≤ x.shape.length) → (f.lg = true → f.nlen.toNat = raws.length) →
    (∀ a ∈ raws, -(x.shape.length : Int) ≤ a ∧ a < x.shape.length) → axes = raws.map (axisOf x.shape.length) → axes.Nodup →
    0 ∉ lens.getD [] →
    x1 = (match lens with
      | some ls => adaptN Config.num x axes ls
      | none => x) →
    fits Config.maxElems (shapeSize x1.shape) = true →
      exec (.dctn f) s = .next { s with
        arrays := s.arrays.set f.rd (.array (fwd Config.num nm axes x1))
        done := true
        seq := s.seq + 1#32 }

/-- R177, R74 to R76, R165 to R167: `IDCTN` on operands that pass every check writes its result, sets `DONE` and counts.
That it ends rests on the collaborator returning (log entry 8). -/
def Obligations.IdctnCompletes : Prop :=
  ∀ (f : Fields) (s : State) (x x1 : TArray Elem) (nm : Norm) (raws : List Int) (axes : List Nat) (lens : Option (List Nat)),
    (Instr.idctn f).wf = true → f.type = 2#4 → NormGiven f nm → s.arrays[f.rs] = .array x →
    AxesGiven f s.axis x.shape.length raws → LensGiven f s.len lens →
    (f.ag = true → 1 ≤ f.nax.toNat ∧ f.nax.toNat ≤ x.shape.length) → (f.lg = true → f.nlen.toNat = raws.length) →
    (∀ a ∈ raws, -(x.shape.length : Int) ≤ a ∧ a < x.shape.length) → axes = raws.map (axisOf x.shape.length) → axes.Nodup →
    0 ∉ lens.getD [] →
    x1 = (match lens with
      | some ls => adaptN Config.num x axes ls
      | none => x) →
    fits Config.maxElems (shapeSize x1.shape) = true →
      exec (.idctn f) s = .next { s with
        arrays := s.arrays.set f.rd (.array (inv Config.num nm axes x1))
        done := true
        seq := s.seq + 1#32 }

/-- R229 steps 1 to 4, R221, R224 to R226: the errors of the word and of an empty source, in their order, for all four
commands under any configuration. That an `Instr` no legal word spells gives `E_ILLEGAL`, the first clause, is the model's own
choice (log entry 14): of words, the statement IllegalExactlyWhen says it. -/
def Obligations.WordErrorsInOrder : Prop :=
  ∀ (p : Params Elem) (i : Instr) (axis len : Vector Word 8) (src : AReg Elem),
    (i.wf = false → commandResult p i axis len src = .error .eIllegal) ∧
    (i.wf = true → i.fields.type ≠ 2#4 → commandResult p i axis len src = .error .eType) ∧
    (i.wf = true → i.fields.type = 2#4 → (i.fields.norm = 2#2 ∨ i.fields.norm = 3#2) →
      commandResult p i axis len src = .error .eNorm) ∧
    (i.wf = true → i.fields.type = 2#4 → (i.fields.norm = 0#2 ∨ i.fields.norm = 1#2) → src = .empty →
      commandResult p i axis len src = .error .eEmpty)

/-- R223, R228, R227 for `DCT` and `IDCT`: the errors of the axis, of a target length 0 and of the capacity, in their order,
once the word and the source have passed. -/
def Obligations.AxisErrorsInOrder : Prop :=
  ∀ (p : Params Elem) (f : Fields) (axis len : Vector Word 8) (x : TArray Elem) (i : Instr),
    i = .dct f ∨ i = .idct f → i.wf = true → f.type = 2#4 → f.norm = 0#2 ∨ f.norm = 1#2 → 1 ≤ x.shape.length →
    let r : Int := x.shape.length
    let raw : Int := if f.ag then axis[0].toInt else -1
    let a : Nat := if 0 ≤ raw then raw.toNat else (r + raw).toNat
    let n : Nat := if f.lg then len[0].toNat else x.shape.getD a 0
    (raw < -r ∨ r ≤ raw → commandResult p i axis len (.array x) = .error .eAxis) ∧
    (-r ≤ raw → raw < r → f.lg = true → len[0] = 0#32 → commandResult p i axis len (.array x) = .error .eShape) ∧
    (-r ≤ raw → raw < r → (f.lg = true → len[0] ≠ 0#32) → fits p.maxElems (shapeSize (x.shape.set a n)) = false →
      commandResult p i axis len (.array x) = .error .eCap) ∧
    (-r ≤ raw → raw < r → (f.lg = true → len[0] ≠ 0#32) → fits p.maxElems (shapeSize (x.shape.set a n)) = true →
      ∃ y, commandResult p i axis len (.array x) = .ok y ∧ y.shape = x.shape.set a n)

/-- R165, R166, R222, R223, R227, R228 for `DCTN` and `IDCTN`: the errors of the two counts, of the axes, of a target length 0
and of the capacity, in their order, once the word and the source have passed. -/
def Obligations.ListErrorsInOrder : Prop :=
  ∀ (p : Params Elem) (f : Fields) (axis len : Vector Word 8) (x : TArray Elem) (i : Instr),
    i = .dctn f ∨ i = .idctn f → i.wf = true → f.type = 2#4 → f.norm = 0#2 ∨ f.norm = 1#2 →
    let r := x.shape.length
    let m := if f.ag then f.nax.toNat else r
    let countsOk : Prop := (f.ag = true → 1 ≤ f.nax.toNat ∧ f.nax.toNat ≤ r) ∧ (f.lg = true → f.nlen.toNat = m)
    (¬countsOk → commandResult p i axis len (.array x) = .error .eShape) ∧
    ∀ (raws : List Int) (lens : Option (List Nat)), AxesGiven f axis r raws → LensGiven f len lens → countsOk →
      let inRange : Prop := ∀ a ∈ raws, -(r : Int) ≤ a ∧ a < r
      let axes := raws.map (axisOf r)
      let x1 := match lens with
        | some ls => adaptN p.num x axes ls
        | none => x
      (¬inRange → commandResult p i axis len (.array x) = .error .eAxis) ∧
      (inRange → ¬axes.Nodup → commandResult p i axis len (.array x) = .error .eAxis) ∧
      (inRange → axes.Nodup → 0 ∈ lens.getD [] → commandResult p i axis len (.array x) = .error .eShape) ∧
      (inRange → axes.Nodup → 0 ∉ lens.getD [] → fits p.maxElems (shapeSize x1.shape) = false →
        commandResult p i axis len (.array x) = .error .eCap) ∧
      (inRange → axes.Nodup → 0 ∉ lens.getD [] → fits p.maxElems (shapeSize x1.shape) = true →
        ∃ y, commandResult p i axis len (.array x) = .ok y ∧ y.shape = x1.shape)

/-- R230, R220: an error of a command sets `FAULT` and its code, clears `DONE`, and leaves all else as it was. -/
def Obligations.FaultEntry : Prop :=
  ∀ (i : Instr) (s : State) (e : Cause),
    commandResult Config.params i s.axis s.len (s.readA i.fields.rs) = .error e →
      exec i s = .next { s with
        fault := true
        done := false
        ecode := match e with
          | .eType => 1#4
          | .eShape => 2#4
          | .eAxis => 3#4
          | .eNorm => 4#4
          | .eIllegal => 5#4
          | .eEmpty => 6#4
          | .eCap => 7#4 }

/-- R230, R234: a command either completes whole or has no effect but fault entry; it always ends in a next state.
That it ends rests on the collaborator returning (log entry 8). -/
def Obligations.NothingHalfDone : Prop :=
  ∀ (i : Instr) (s : State), ∃ t, exec i s = .next t ∧
    ((∃ y, t.readA i.fields.rd = .array y ∧ t.done = true ∧ t.seq = s.seq + 1#32 ∧ t.fault = s.fault ∧ t.ecode = s.ecode) ∨
      (t.arrays = s.arrays ∧ t.done = false ∧ t.seq = s.seq ∧ t.fault = true ∧ t.ecode ≠ 0#4))

/-- R22, R56, R61: what no command changes. Every array register but `A[RD]`, element for element, and `CMD`, `AXISj`, `LENj`;
and `A[RD]` itself unless the command completes.
The fields `pending` and `reads` are the model's own (log entries 1 and 2). -/
def Obligations.CommandFrame : Prop :=
  ∀ (i : Instr) (s t : State), exec i s = .next t →
    (∀ j, j ≠ i.fields.rd → t.readA j = s.readA j ∧ ∀ addr n, t.memRead j addr n = s.memRead j addr n) ∧
    (t.done = false → ∀ j addr n, t.memRead j addr n = s.memRead j addr n) ∧
    t.cmd = s.cmd ∧ t.axis = s.axis ∧ t.len = s.len ∧ t.pending = s.pending ∧ t.reads = s.reads

/-- R56: the destination register number has no part in the result, so `RD = RS` gives the same array as any other
destination. -/
def Obligations.ResultIgnoresDestination : Prop :=
  ∀ (f : Fields) (d : Fin 4) (s : State) (y : TArray Elem),
    (commandResult Config.params (.dct f) s.axis s.len (s.readA f.rs) = .ok y →
      ∃ t, exec (.dct { f with rd := d }) s = .next t ∧ t.readA d = .array y) ∧
    (commandResult Config.params (.idct f) s.axis s.len (s.readA f.rs) = .ok y →
      ∃ t, exec (.idct { f with rd := d }) s = .next t ∧ t.readA d = .array y) ∧
    (commandResult Config.params (.dctn f) s.axis s.len (s.readA f.rs) = .ok y →
      ∃ t, exec (.dctn { f with rd := d }) s = .next t ∧ t.readA d = .array y) ∧
    (commandResult Config.params (.idctn f) s.axis s.len (s.readA f.rs) = .ok y →
      ∃ t, exec (.idctn { f with rd := d }) s = .next t ∧ t.readA d = .array y)

/-- R208, R209, R229: whether a command faults, and with which error, depends on the word, the shape, the registers and the
capacity only: not on any element value, nor on the numerics record, the collaborator included. -/
def Obligations.ErrorsIgnoreElements : Prop :=
  ∀ (α β : Type) (p : Params α) (p' : Params β) (i : Instr) (axis len : Vector Word 8) (x : TArray α) (x' : TArray β),
    p.maxElems = p'.maxElems → x.shape = x'.shape →
      ∀ e, commandResult p i axis len (.array x) = .error e ↔ commandResult p' i axis len (.array x') = .error e

/-- R25, R26, R35: the result of a legal command depends on the descriptor entries its count fields select and on no
other. -/
def Obligations.StaleEntriesNotRead : Prop :=
  ∀ (p : Params Elem) (i : Instr) (axis axis' len len' : Vector Word 8) (src : AReg Elem), i.wf = true →
    (i.fields.ag = true → ∀ j : Fin 8, j.val < i.fields.nax.toNat → axis[j] = axis'[j]) →
    (i.fields.lg = true → ∀ j : Fin 8, j.val < i.fields.nlen.toNat → len[j] = len'[j]) →
      commandResult p i axis len src = commandResult p i axis' len' src

/-- R168, R175, R177: on one listed axis `DCTN` is `DCT` and `IDCTN` is `IDCT` along that axis. -/
def Obligations.OneAxisDelegates : Prop :=
  ∀ (f : Fields) (s : State), Memory.wf Config.maxElems s.arrays = true → f.ag = true → f.nax = 1#4 →
    (f.lg = true ∧ f.nlen = 1#4 ∨ f.lg = false ∧ f.nlen = 0#4) →
      exec (.dctn f) s = exec (.dct f) s ∧ exec (.idctn f) s = exec (.idct f) s

/-- R139: `DCT` with a target length gives the result of `DCT` without one on the adapted array. -/
def Obligations.PadThenTransform : Prop :=
  ∀ (p : Params Elem) (f : Fields) (axis len : Vector Word 8) (x y : TArray Elem) (a : Nat),
    f.lg = true → canon (axisRaw1 f axis) x.shape.length = some a →
    commandResult p (.dct f) axis len (.array x) = .ok y →
      commandResult p (.dct { f with lg := false, nlen := 0#4 }) axis len (.array (adapt p.num x a len[0].toNat)) = .ok y

/-! ### The invariant and the rules of the whole machine -/

/-- R21, R27, R33: the state after reset is sound. -/
def Obligations.ResetSound : Prop :=
  State.reset.Inv

/-- R21, R27, R33, R220: every step keeps the state sound: every array register holds a legal value, `DONE` and `FAULT` are
never both 1, `ECODE` is 0 exactly when `FAULT` = 0 and never `0x8..0xF`. -/
def Obligations.StepKeepsSound : Prop :=
  ∀ s t : State, s.Inv → step s = .next t → t.Inv

/-- R53, R234, R269, R270: the machine never stops by itself; the only step without a next state is a load of a value the
host cannot load. The list of host actions, and that a step with none to come answers the same state, are the model's own (log
entry 1). The refusal is the model's own choice (log entry 7), and that commands end rests on log entry 8. -/
def Obligations.OnlyBadLoadStops : Prop :=
  ∀ s : State, (∃ t, step s = .next t) ∨
    ∃ i v rest, s.pending = .loadArray i v :: rest ∧ v.wf Config.maxElems = false ∧ step s = .refused .notAMove

/-- R32: `SEQ` changes only by a command that completes, by 1 modulo 2^32, or by reset.
The list of host actions is the model's own (log entry 1). -/
def Obligations.SeqCountsCompletions : Prop :=
  ∀ s t : State, step s = .next t → t.seq ≠ s.seq →
    (∃ w rest, s.pending = .writeReg .cmd w :: rest ∧ s.fault = false ∧ t.done = true ∧ t.seq = s.seq + 1#32) ∨
      ∃ rest, s.pending = .reset :: rest ∧ t.seq = 0#32

/-- R24 to R26, R61: `AXISj` and `LENj` change only by the host's own writes or reset, and `CMD` only by an accepted `CMD`
write or reset: no command writes its own descriptor.
The list of host actions is the model's own (log entry 1). -/
def Obligations.DescriptorsOnlyByHost : Prop :=
  ∀ s t : State, step s = .next t →
    (t.axis ≠ s.axis → (∃ j v rest, s.pending = .writeReg (.axis j) v :: rest) ∨ ∃ rest, s.pending = .reset :: rest) ∧
    (t.len ≠ s.len → (∃ j v rest, s.pending = .writeReg (.len j) v :: rest) ∨ ∃ rest, s.pending = .reset :: rest) ∧
    (t.cmd ≠ s.cmd → (∃ w rest, s.pending = .writeReg .cmd w :: rest ∧ s.fault = false ∧ t.cmd = w) ∨
      ∃ rest, s.pending = .reset :: rest)

/-- R22, R23: an array register changes only by a load into it, by a command that completes with it as `RD`, or by reset.
The list of host actions is the model's own (log entry 1). -/
def Obligations.ArraysOnlyByLoadAndCommand : Prop :=
  ∀ (s t : State) (j : Fin 4), step s = .next t → t.readA j ≠ s.readA j →
    (∃ v rest, s.pending = .loadArray j v :: rest ∧ t.readA j = .array v) ∨
    (∃ w rest i, s.pending = .writeReg .cmd w :: rest ∧ s.fault = false ∧ decode w = .ok i ∧ i.fields.rd = j ∧
      t.done = true) ∨
    ∃ rest, s.pending = .reset :: rest ∧ t.readA j = .empty

/-- R231, R232, R220: a pending fault ends only by a write to `FCLR` or by reset, and until then `ECODE` keeps its value; a
fault begins only at a `CMD` write.
The list of host actions is the model's own (log entry 1). -/
def Obligations.FaultIsSticky : Prop :=
  ∀ s t : State, step s = .next t →
    (s.fault = true → t.fault = false →
      (∃ v rest, s.pending = .writeReg .fclr v :: rest) ∨ ∃ rest, s.pending = .reset :: rest) ∧
    (s.fault = true → t.fault = true → t.ecode = s.ecode ∧ t.done = s.done ∧ t.cmd = s.cmd) ∧
    (s.fault = false → t.fault = true → ∃ w rest, s.pending = .writeReg .cmd w :: rest ∧ t.cmd = w ∧ t.done = false)

/-! ### The units on data of any type -/

/-- R130: `canon`, its examples, and the source's property that axis `-1` is the last axis. -/
def Obligations.CanonClauses : Prop :=
  (∀ (a : Int) (r : Nat), 1 ≤ r →
    (0 ≤ a → a ≤ r - 1 → canon a r = some a.toNat) ∧ (-(r : Int) ≤ a → a ≤ -1 → canon a r = some (r + a).toNat) ∧
      (a < -(r : Int) ∨ (r : Int) ≤ a → canon a r = none)) ∧
  (canon (-1) 2 = some 1 ∧ canon (-2) 2 = some 0 ∧ canon 1 2 = some 1 ∧ canon 2 2 = none ∧ canon (-3) 2 = none) ∧
  ∀ (p : Params Elem) (f : Fields) (axis len : Vector Word 8) (x : TArray Elem),
    1 ≤ x.shape.length → x.shape.length ≤ 8 → f.ag = true →
      commandResult p (.dct f) (axis.set 0 (0xFFFFFFFF#32)) len (.array x) =
        commandResult p (.dct f) (axis.set 0 (BitVec.ofNat 32 (x.shape.length - 1))) len (.array x)

/-- R100, R101: `ILV` is the even-position elements followed by the odd-position ones reversed; on an array it does so to every
line along the axis, and elements never move between lines. -/
def Obligations.InterleaveIsEvenThenOddReversed : Prop :=
  (∀ (α : Type) (N : Nat) (x : Fin N → α),
    List.ofFn (ilv N x) =
      List.ofFn (fun j : Fin ((N + 1) / 2) => x ⟨2 * j.val, by omega⟩) ++
        (List.ofFn fun j : Fin (N / 2) => x ⟨2 * j.val + 1, by omega⟩).reverse) ∧
  ∀ (α : Type) (z : α) (a : Nat) (x : TArray α), (ilvAlong z a x).shape = x.shape ∧
    ∀ i, inBounds x.shape i = true → a < x.shape.length →
      let N := x.shape.getD a 0
      let k := i.getD a 0
      (ilvAlong z a x).at z i = x.at z (i.set a (if k < (N + 1) / 2 then 2 * k else 2 * (N - 1 - k) + 1))

/-- R103, R104: `DILV` puts the head at the even positions and the reversed tail at the odd ones; on an array it does so to every
line along the axis. -/
def Obligations.DeinterleaveScatters : Prop :=
  (∀ (α : Type) (N : Nat) (y : Fin N → α),
    (∀ (j : Nat) (h : 2 * j < N), dilv N y ⟨2 * j, h⟩ = y ⟨j, by omega⟩) ∧
      ∀ (m : Nat) (h : 2 * m + 1 < N), dilv N y ⟨2 * m + 1, h⟩ = y ⟨N - 1 - m, by omega⟩) ∧
  ∀ (α : Type) (z : α) (a : Nat) (y : TArray α), (dilvAlong z a y).shape = y.shape ∧
    ∀ i, inBounds y.shape i = true → a < y.shape.length →
      let N := y.shape.getD a 0
      let k := i.getD a 0
      (dilvAlong z a y).at z i = y.at z (i.set a (if k % 2 = 0 then k / 2 else N - 1 - k / 2))

/-- R105: the inverse law, on arrays, exactly, along any axis and over any element type. -/
def Obligations.InterleaveInverse : Prop :=
  ∀ (α : Type) (z : α) (a : Nat) (x : TArray α), a < x.shape.length → x.data.length = shapeSize x.shape →
    dilvAlong z a (ilvAlong z a x) = x ∧ ilvAlong z a (dilvAlong z a x) = x

/-- R107: interleaves along two different axes commute. -/
def Obligations.InterleavesCommute : Prop :=
  ∀ (α : Type) (z : α) (p q : Nat) (x : TArray α), p < x.shape.length → q < x.shape.length → p ≠ q →
    ilvAlong z p (ilvAlong z q x) = ilvAlong z q (ilvAlong z p x)

/-- R51: the linear index is row-major: the last axis varies fastest, every linear index below the size is that of one
multi-index, and the element at a multi-index is the one stored at its linear index. -/
def Obligations.LinearIndexIsRowMajor : Prop :=
  (∀ sh i : List Nat, inBounds sh i = true ↔ i.length = sh.length ∧ ∀ a < sh.length, i.getD a 0 < sh.getD a 0) ∧
  (∀ sh i : List Nat, inBounds sh i = true →
    lin sh i < shapeSize sh ∧
      lin sh i = ((List.range sh.length).map fun a => i.getD a 0 * shapeSize (sh.drop (a + 1))).sum) ∧
  (∀ (sh : List Nat) (k : Nat), k < shapeSize sh → ∃ i, inBounds sh i = true ∧ lin sh i = k ∧
    ∀ i', inBounds sh i' = true → lin sh i' = k → i' = i) ∧
  ∀ (α : Type) (z : α) (x : TArray α) (i : List Nat), x.data.length = shapeSize x.shape → inBounds x.shape i = true →
    x.data[lin x.shape i]? = some (x.at z i)

/-- R131: `ADAPT` keeps the leading elements of every line and appends zeros. -/
def Obligations.AdaptPadsAndTruncates : Prop :=
  ∀ (α : Type) (num : Numerics α) (x : TArray α) (a n : Nat), a < x.shape.length → x.data.length = shapeSize x.shape →
    (adapt num x a n).shape = x.shape.set a n ∧
    (∀ i, inBounds (x.shape.set a n) i = true →
      (i.getD a 0 < x.shape.getD a 0 → (adapt num x a n).at num.zero i = x.at num.zero i) ∧
      (x.shape.getD a 0 ≤ i.getD a 0 → (adapt num x a n).at num.zero i = num.zero)) ∧
    (n = x.shape.getD a 0 → adapt num x a n = x)

/-- R132: `ADAPTN` is `ADAPT` along each listed axis, one after the other, for distinct axes. -/
def Obligations.AdaptAllIsAdaptEach : Prop :=
  ∀ (α : Type) (num : Numerics α) (x : TArray α) (axes lens : List Nat), x.data.length = shapeSize x.shape →
    axes.Nodup → (∀ a ∈ axes, a < x.shape.length) → axes.length = lens.length →
      adaptN num x axes lens = (axes.zip lens).foldl (fun y al => adapt num y al.1 al.2) x

/-- R171: the mirror is a flip along the second axis followed by a roll of it by one place toward higher indices. -/
def Obligations.MirrorIsFlipThenRoll : Prop :=
  ∀ (α : Type) (N1 N2 : Nat) (V : Fin N1 → Fin N2 → Cx α) (k1 : Fin N1) (k2 : Fin N2),
    let flip : Fin N2 → Cx α := fun j => V k1 ⟨N2 - 1 - j.val, by omega⟩
    (k2.val = 0 → mirror N1 N2 V k1 k2 = V k1 k2) ∧
      (∀ h : 1 ≤ k2.val, mirror N1 N2 V k1 k2 = V k1 ⟨N2 - k2.val, by omega⟩) ∧
      mirror N1 N2 V k1 k2 = flip ⟨(k2.val + (N2 - 1)) % N2, Nat.mod_lt _ k2.pos⟩

/-! ### The arithmetic in the ideal numerics -/

/-- R120, R122, R123: the twiddle factor and its division law. -/
def Obligations.TwiddleLaws : Prop :=
  ∀ (N : Nat) (k : Int) (z : Cx ℝ), 1 ≤ N →
    toComplex (W ideal N k) = Complex.exp (-Complex.I * Real.pi * k / (2 * N)) ∧
      W ideal N (-k) = Cx.conj ideal (W ideal N k) ∧
      (W ideal N k).re ^ 2 + (W ideal N k).im ^ 2 = 1 ∧
      Cx.div ideal z (W ideal N k) = Cx.mul ideal z (W ideal N (-k))

/-- R190, R191, R193: one pass divides by `sqrt(4N)` and `sqrt(2N)`, two passes by `4N` and `2N`; on an array a pass divides each
element by its position along the axis, with `N` the extent of the axis. -/
def Obligations.NormPasses : Prop :=
  (∀ (N : Nat) (y : Fin N → ℝ) (k : Fin N),
    nrm ideal N y k = y k / Real.sqrt (if k.val = 0 then 4 * N else 2 * N) ∧
      nrmPasses ideal N 2 y k = y k / (if k.val = 0 then 4 * N else 2 * N)) ∧
  ∀ (a : Nat) (y : TArray ℝ), (nrmAlong ideal a y).shape = y.shape ∧
    ∀ i, inBounds y.shape i = true → a < y.shape.length →
      (nrmAlong ideal a y).at 0 i =
        y.at 0 i / Real.sqrt (if i.getD a 0 = 0 then 4 * (y.shape.getD a 0 : ℝ) else 2 * (y.shape.getD a 0 : ℝ))

/-- R201, R203 to R206: the ideal instance's collaborator has the three named properties, and its inverse FFT undoes its
FFT. -/
def Obligations.IdealCollaborator : Prop :=
  FftIsDft ideal ∧ IfftIsIdft ideal ∧ Fft2IsFftFft ideal ∧
    ∀ (N : Nat) (z : Fin N → Cx ℝ) (n : Fin N), ideal.ifft N (ideal.fft N z) n = z n

/-- R135, R140: the forward kernel is the unnormalised DCT-II, on a line and, on an array, of every line along the axis. -/
def Obligations.DctClosedForm : Prop :=
  (∀ (N : Nat) (x : Fin N → ℝ) (k : Fin N),
    dct1 ideal N x k = 2 * ∑ n : Fin N, x n * Real.cos (Real.pi * k.val * (2 * n.val + 1) / (2 * N))) ∧
  ∀ (a : Nat) (x : TArray ℝ), (dct1Along ideal a x).shape = x.shape ∧
    ∀ i, inBounds x.shape i = true → a < x.shape.length →
      let N := x.shape.getD a 0
      let k := i.getD a 0
      (dct1Along ideal a x).at 0 i =
        2 * ∑ n : Fin N, x.at 0 (i.set a n.val) * Real.cos (Real.pi * k * (2 * n.val + 1) / (2 * N))

/-- R152, R154: the inverse kernel in closed form, over the scaled input and, for both settings of `norm`, over the input; on an
array, of every line along the axis. -/
def Obligations.IdctClosedForm : Prop :=
  (∀ (N : Nat) (X : Fin N → ℝ) (m : Fin N),
    (∀ nm : Norm, idct1 ideal nm N X m = 2 * ∑ k : Fin N,
      nrmPasses ideal N (passes nm) X k * Real.cos (Real.pi * k.val * (2 * m.val + 1) / (2 * N))) ∧
    idct1 ideal .none N X m =
        X ⟨0, m.pos⟩ / (2 * N) + 1 / N * ∑ k : Fin N,
          (if k.val = 0 then 0 else X k * Real.cos (Real.pi * k.val * (2 * m.val + 1) / (2 * N))) ∧
      idct1 ideal .ortho N X m =
        X ⟨0, m.pos⟩ / Real.sqrt N + Real.sqrt (2 / N) * ∑ k : Fin N,
          (if k.val = 0 then 0 else X k * Real.cos (Real.pi * k.val * (2 * m.val + 1) / (2 * N)))) ∧
  ∀ (a : Nat) (X : TArray ℝ), (∀ nm : Norm, (idct1Along ideal nm a X).shape = X.shape) ∧
    ∀ i, inBounds X.shape i = true → a < X.shape.length →
      let N := X.shape.getD a 0
      let m := i.getD a 0
      (idct1Along ideal .none a X).at 0 i =
          X.at 0 (i.set a 0) / (2 * N) + 1 / N * ∑ k : Fin N,
            (if k.val = 0 then 0 else X.at 0 (i.set a k.val) * Real.cos (Real.pi * k.val * (2 * m + 1) / (2 * N))) ∧
        (idct1Along ideal .ortho a X).at 0 i =
          X.at 0 (i.set a 0) / Real.sqrt N + Real.sqrt (2 / N) * ∑ k : Fin N,
            (if k.val = 0 then 0 else X.at 0 (i.set a k.val) * Real.cos (Real.pi * k.val * (2 * m + 1) / (2 * N)))

/-- R138, R156: the forward kernel is linear, with and without `norm`, and so is the inverse kernel. -/
def Obligations.TransformsLinear : Prop :=
  ∀ (N : Nat) (nm : Norm) (a b : ℝ) (x y : Fin N → ℝ) (k : Fin N),
    let z : Fin N → ℝ := fun n => a * x n + b * y n
    dct1 ideal N z k = a * dct1 ideal N x k + b * dct1 ideal N y k ∧
      nrm ideal N (dct1 ideal N z) k = a * nrm ideal N (dct1 ideal N x) k + b * nrm ideal N (dct1 ideal N y) k ∧
      idct1 ideal nm N z k = a * idct1 ideal nm N x k + b * idct1 ideal nm N y k

/-- R142: the known small case, `x = [1, 2, 3, 4]`. -/
def Obligations.KnownSmallCase : Prop :=
  List.ofFn (dct1 ideal 4 fun n => (n.val : ℝ) + 1) =
    [20, -6 * Real.cos (Real.pi / 8) - 2 * Real.cos (3 * Real.pi / 8), 0,
      2 * Real.cos (Real.pi / 8) - 6 * Real.cos (3 * Real.pi / 8)]

/-- R193, Glossary: with `norm = ortho` the forward transform preserves energy. -/
def Obligations.OrthoPreservesEnergy : Prop :=
  ∀ (N : Nat) (x : Fin N → ℝ), ∑ k : Fin N, nrm ideal N (dct1 ideal N x) k ^ 2 = ∑ n : Fin N, x n ^ 2

/-- R155: the round trip, on arrays, along any axis, for both settings of `norm`. -/
def Obligations.RoundTrip : Prop :=
  ∀ (nm : Norm) (a : Nat) (x : TArray ℝ), a < x.shape.length → x.data.length = shapeSize x.shape →
    idct1Along ideal nm a (fwd1 ideal nm a x) = x

/-- R173, R174: the 2-D fast path is the two 1-D transforms, axis 2 first or axis 1 first. -/
def Obligations.FastPathIsTwoPasses : Prop :=
  ∀ (nm : Norm) (p q : Nat) (x : TArray ℝ), p < x.shape.length → q < x.shape.length → p ≠ q →
    dct2d ideal nm p q x = fwd1 ideal nm p (fwd1 ideal nm q x) ∧
      dct2d ideal nm p q x = fwd1 ideal nm q (fwd1 ideal nm p x)

/-- R176, R178: neither composition depends on the order of the axes, and the forward one is the 1-D transforms one after the
other. -/
def Obligations.CompositionsSeparable : Prop :=
  ∀ (nm : Norm) (axes axes' : List Nat) (x : TArray ℝ), axes.Nodup → (∀ a ∈ axes, a < x.shape.length) →
    axes.Perm axes' →
      fwd ideal nm axes x = axes'.foldl (fun y a => fwd1 ideal nm a y) x ∧ inv ideal nm axes x = inv ideal nm axes' x

/-- R179: the N-D round trip, for distinct axes and one setting of `norm`. -/
def Obligations.RoundTripAllAxes : Prop :=
  ∀ (nm : Norm) (axes : List Nat) (x : TArray ℝ), axes.Nodup → (∀ a ∈ axes, a < x.shape.length) →
    x.data.length = shapeSize x.shape → inv ideal nm axes (fwd ideal nm axes x) = x

/-- R155 on the machine's commands: `IDCT` of `DCT` of a legal array is the array, under every configuration whose `Num` is the
ideal one, when no length is given and the two words agree in `norm` and axis. -/
def Obligations.CommandRoundTrip : Prop :=
  ∀ (p : Params ℝ) (f : Fields) (axis len : Vector Word 8) (x y : TArray ℝ), p.num = ideal → x.wf p.maxElems = true →
    f.lg = false → commandResult p (.dct f) axis len (.array x) = .ok y →
      commandResult p (.idct f) axis len (.array y) = .ok x
end

