-- ==== Sys2Proof/Laws/Arrays.lean ====
section
/-! SUPPORT. Laws of shapes and arrays: the linear index and its inverse, reading a built array, the shapes of the lifts, and
that what they build is a legal array of its shape. -/

namespace Sys2Proof.Machine

@[simp] theorem shapeSize_nil : shapeSize [] = 1 := rfl
@[simp] theorem shapeSize_cons (d : Nat) (ds : List Nat) : shapeSize (d :: ds) = d * shapeSize ds := rfl

theorem inBounds_length : ∀ {sh i : List Nat}, inBounds sh i = true → i.length = sh.length
  | [], [], _ => rfl
  | d :: ds, i :: is, h => by
    simp only [inBounds, Bool.and_eq_true] at h
    simp [inBounds_length h.2]

theorem lin_lt : ∀ {sh i : List Nat}, inBounds sh i = true → lin sh i < shapeSize sh
  | [], [], _ => by simp [lin]
  | d :: ds, i :: is, h => by
    simp only [inBounds, Bool.and_eq_true, decide_eq_true_eq] at h
    have h2 := lin_lt h.2
    have h3 : (i + 1) * shapeSize ds ≤ d * shapeSize ds := Nat.mul_le_mul_right _ h.1
    simp only [lin, shapeSize_cons]
    rw [Nat.add_mul, Nat.one_mul] at h3
    omega

/-- `unlin` undoes `lin` on the multi-indices of a shape. -/
theorem unlin_lin : ∀ {sh i : List Nat}, inBounds sh i = true → unlin sh (lin sh i) = i
  | [], [], _ => rfl
  | d :: ds, i :: is, h => by
    simp only [inBounds, Bool.and_eq_true, decide_eq_true_eq] at h
    have h2 := lin_lt h.2
    have hd : (i * shapeSize ds + lin ds is) / shapeSize ds = i := by
      rw [Nat.mul_comm, Nat.mul_add_div (by omega), Nat.div_eq_of_lt h2, Nat.add_zero]
    have hm : (i * shapeSize ds + lin ds is) % shapeSize ds = lin ds is := by
      rw [Nat.mul_comm, Nat.mul_add_mod, Nat.mod_eq_of_lt h2]
    simp only [lin, unlin, hd, hm, unlin_lin h.2]

theorem unlin_inBounds : ∀ {sh : List Nat} {k : Nat}, k < shapeSize sh → inBounds sh (unlin sh k) = true
  | [], _, _ => rfl
  | d :: ds, k, h => by
    simp only [shapeSize_cons] at h
    have hp : 0 < shapeSize ds := by
      rcases Nat.eq_zero_or_pos (shapeSize ds) with h0 | h0
      · rw [h0] at h; omega
      · exact h0
    simp only [unlin, inBounds, Bool.and_eq_true, decide_eq_true_eq]
    exact ⟨Nat.div_lt_of_lt_mul (by rwa [Nat.mul_comm] at h), unlin_inBounds (Nat.mod_lt _ hp)⟩

/-- `lin` undoes `unlin` below the size of a shape. -/
theorem lin_unlin : ∀ {sh : List Nat} {k : Nat}, k < shapeSize sh → lin sh (unlin sh k) = k
  | [], k, h => by simp only [shapeSize_nil] at h; simp only [lin]; omega
  | d :: ds, k, h => by
    simp only [shapeSize_cons] at h
    have hp : 0 < shapeSize ds := by
      rcases Nat.eq_zero_or_pos (shapeSize ds) with h0 | h0
      · rw [h0] at h; omega
      · exact h0
    simp only [unlin, lin, lin_unlin (Nat.mod_lt k hp)]
    rw [Nat.mul_comm]; exact Nat.div_add_mod _ _

@[simp] theorem TArray.build_shape {α : Type} (sh : List Nat) (f : List Nat → α) : (TArray.build sh f).shape = sh := rfl

@[simp] theorem TArray.build_length {α : Type} (sh : List Nat) (f : List Nat → α) :
    (TArray.build sh f).data.length = shapeSize sh := by simp [TArray.build]

/-- Reading a built array gives the function it was built from. -/
theorem TArray.at_build {α : Type} (z : α) {sh i : List Nat} (f : List Nat → α) (h : inBounds sh i = true) :
    (TArray.build sh f).at z i = f i := by
  simp [TArray.at, TArray.build, h, List.getD_eq_getElem?_getD, lin_lt h, unlin_lin h]

/-- Two arrays built from functions that agree on the multi-indices of the shape are equal. -/
theorem TArray.build_congr {α : Type} {sh : List Nat} {f g : List Nat → α}
    (h : ∀ i, inBounds sh i = true → f i = g i) : TArray.build sh f = TArray.build sh g := by
  simp only [TArray.build, TArray.mk.injEq, true_and]
  exact List.map_congr_left fun k hk => h _ (unlin_inBounds (List.mem_range.1 hk))

/-- An array with one element per multi-index is the array built from its own elements. -/
theorem TArray.build_at {α : Type} (z : α) {x : TArray α} (h : x.data.length = shapeSize x.shape) :
    TArray.build x.shape (x.at z) = x := by
  obtain ⟨sh, d⟩ := x
  simp only [TArray.build, TArray.mk.injEq, true_and]
  apply List.ext_getElem
  · simpa using h.symm
  · intro k h1 h2
    have hk : k < shapeSize sh := by simpa using h1
    simp [TArray.at, unlin_inBounds hk, lin_unlin hk, List.getD_eq_getElem?_getD, h2]

@[simp] theorem along_shape {α : Type} (z : α) (a : Nat) (f) (x : TArray α) : (along z a f x).shape = x.shape := rfl
@[simp] theorem along_length {α : Type} (z : α) (a : Nat) (f) (x : TArray α) :
    (along z a f x).data.length = shapeSize x.shape := TArray.build_length _ _
@[simp] theorem alongPlane_shape {α : Type} (z : α) (p q : Nat) (f) (x : TArray α) :
    (alongPlane z p q f x).shape = x.shape := rfl
@[simp] theorem alongPlane_length {α : Type} (z : α) (p q : Nat) (f) (x : TArray α) :
    (alongPlane z p q f x).data.length = shapeSize x.shape := TArray.build_length _ _

theorem inBounds_getD : ∀ {sh i : List Nat} {a : Nat}, inBounds sh i = true → a < sh.length → i.getD a 0 < sh.getD a 0
  | [], _, _, _, h => by simp at h
  | d :: ds, i :: is, 0, h, _ => by
    simp only [inBounds, Bool.and_eq_true, decide_eq_true_eq] at h
    simpa using h.1
  | d :: ds, i :: is, a + 1, h, ha => by
    simp only [inBounds, Bool.and_eq_true, decide_eq_true_eq] at h
    simpa using inBounds_getD h.2 (by simpa using ha)

theorem inBounds_set : ∀ {sh i : List Nat} {a j : Nat}, inBounds sh i = true → j < sh.getD a 0 →
    inBounds sh (i.set a j) = true
  | [], [], _, _, _, h => by simp at h
  | d :: ds, i :: is, 0, j, h, hj => by
    simp only [inBounds, Bool.and_eq_true, decide_eq_true_eq, List.set_cons_zero] at h ⊢
    exact ⟨by simpa using hj, h.2⟩
  | d :: ds, i :: is, a + 1, j, h, hj => by
    simp only [inBounds, Bool.and_eq_true, decide_eq_true_eq, List.set_cons_succ] at h ⊢
    exact ⟨h.1, inBounds_set h.2 (by simpa using hj)⟩

/-- The element of `along(a, f, x)` at a multi-index is `f` of the line through it, at its position on the line. -/
theorem at_along {α : Type} (z : α) {a : Nat} (f : (N : Nat) → (Fin N → α) → Fin N → α) {x : TArray α} {i : List Nat}
    (h : inBounds x.shape i = true) (ha : a < x.shape.length) :
    (along z a f x).at z i =
      f (x.shape.getD a 0) (fun j => x.at z (i.set a j.val)) ⟨i.getD a 0, inBounds_getD h ha⟩ := by
  rw [along, TArray.at_build z _ h, dif_pos (inBounds_getD h ha)]

/-- The element of a plane lift at a multi-index is `f` of the plane through it, at its position on the plane. -/
theorem at_alongPlane {α : Type} (z : α) {p q : Nat} (f : (N1 N2 : Nat) → (Fin N1 → Fin N2 → α) → Fin N1 → Fin N2 → α)
    {x : TArray α} {i : List Nat} (h : inBounds x.shape i = true) (hp : p < x.shape.length) (hq : q < x.shape.length) :
    (alongPlane z p q f x).at z i =
      f (x.shape.getD p 0) (x.shape.getD q 0) (fun j1 j2 => x.at z ((i.set p j1.val).set q j2.val))
        ⟨i.getD p 0, inBounds_getD h hp⟩ ⟨i.getD q 0, inBounds_getD h hq⟩ := by
  rw [alongPlane, TArray.at_build z _ h, dif_pos ⟨inBounds_getD h hp, inBounds_getD h hq⟩]

/-- Line functions that agree on every line agree along an axis. -/
theorem along_congr {α : Type} (z : α) (a : Nat) {f g : (N : Nat) → (Fin N → α) → Fin N → α}
    (h : ∀ N x k, f N x k = g N x k) (x : TArray α) : along z a f x = along z a g x := by
  have : f = g := by funext N x k; exact h N x k
  rw [this]

/-- Two full arrays of one shape that agree at every multi-index are equal. -/
theorem TArray.ext_at {α : Type} (z : α) {x y : TArray α} (hs : x.shape = y.shape) (hx : x.data.length = shapeSize x.shape)
    (hy : y.data.length = shapeSize y.shape) (h : ∀ i, inBounds y.shape i = true → x.at z i = y.at z i) : x = y := by
  rw [← TArray.build_at z hx, ← TArray.build_at z hy, hs]
  exact TArray.build_congr h

/-- A coordinate that was set reads back, on an axis of the shape. -/
theorem inBounds_set_getD {sh i : List Nat} {a j : Nat} (h : inBounds sh i = true) (ha : a < sh.length) :
    (i.set a j).getD a 0 = j := by
  have hl : a < i.length := by rw [inBounds_length h]; exact ha
  simp [hl]

/-- Two lifts along the same axis are the lift of the composition. -/
theorem along_along {α : Type} (z : α) {a : Nat} (f g : (N : Nat) → (Fin N → α) → Fin N → α) {x : TArray α}
    (ha : a < x.shape.length) :
    along z a g (along z a f x) = along z a (fun N l => g N (f N l)) x := by
  refine TArray.ext_at z rfl (by simp) (by simp) fun i hi => ?_
  have hi' : inBounds x.shape i = true := hi
  rw [at_along (x := along z a f x) z g hi' ha, at_along z _ hi' ha]
  congr 1
  funext j
  have hj := inBounds_set hi' j.isLt
  rw [at_along z f (show inBounds x.shape (i.set a j.val) = true from hj) ha]
  simp only [List.set_set]
  congr 1
  exact Fin.ext (inBounds_set_getD hi' ha)

@[simp] theorem refit_shape {α : Type} (num : Numerics α) (x : TArray α) (sh : List Nat) : (refit num x sh).shape = sh := rfl
@[simp] theorem adapt_shape {α : Type} (num : Numerics α) (x : TArray α) (a n : Nat) :
    (adapt num x a n).shape = x.shape.set a n := rfl
@[simp] theorem adaptN_shape {α : Type} (num : Numerics α) (x : TArray α) (axes lens : List Nat) :
    (adaptN num x axes lens).shape = setExtents x.shape axes lens := rfl

/-- Adaptation to its own shape leaves an array as it is. -/
theorem refit_self {α : Type} (num : Numerics α) {x : TArray α} (h : x.data.length = shapeSize x.shape) :
    refit num x x.shape = x := TArray.build_at num.zero h

/-- Adaptation of an axis to its own extent is the identity (rule R131). -/
theorem adapt_self {α : Type} (num : Numerics α) {x : TArray α} (h : x.data.length = shapeSize x.shape) {a : Nat} :
    adapt num x a (x.shape.getD a 0) = x := by
  have hs : x.shape.set a (x.shape.getD a 0) = x.shape := by
    apply List.ext_getElem?
    intro n
    rw [List.getElem?_set]
    split
    · subst_vars
      split
      · simp_all [List.getD_eq_getElem?_getD]
      · simp_all
    · rfl
  rw [adapt, hs, refit_self num h]

@[simp] theorem nrmAlong_shape {α : Type} (num : Numerics α) (a : Nat) (x : TArray α) : (nrmAlong num a x).shape = x.shape :=
  rfl
@[simp] theorem dct1Along_shape {α : Type} (num : Numerics α) (a : Nat) (x : TArray α) :
    (dct1Along num a x).shape = x.shape := rfl
@[simp] theorem fwd1_shape {α : Type} (num : Numerics α) (nm : Norm) (a : Nat) (x : TArray α) :
    (fwd1 num nm a x).shape = x.shape := by cases nm <;> rfl
@[simp] theorem fwd1_length {α : Type} (num : Numerics α) (nm : Norm) (a : Nat) (x : TArray α) :
    (fwd1 num nm a x).data.length = shapeSize x.shape := by
  cases nm <;> simp [fwd1, dct1Along, nrmAlong]

@[simp] theorem setExtents_length : ∀ (sh axes lens : List Nat), (setExtents sh axes lens).length = sh.length
  | sh, [], _ => by cases ‹List Nat› <;> rfl
  | sh, _ :: _, [] => rfl
  | sh, a :: axes, n :: lens => by simp [setExtents, setExtents_length]

theorem setExtents_all {P : Nat → Prop} : ∀ {sh axes lens : List Nat}, (∀ d ∈ sh, P d) → (∀ n ∈ lens, P n) →
    ∀ d ∈ setExtents sh axes lens, P d
  | sh, [], lens, h, _ => by cases lens <;> exact h
  | sh, _ :: _, [], h, _ => h
  | sh, a :: axes, n :: lens, h, hn => by
    refine setExtents_all (sh := sh.set a n) (fun d hd => ?_) fun m hm => hn m (List.mem_cons_of_mem _ hm)
    rcases List.mem_or_eq_of_mem_set hd with h' | rfl
    · exact h d h'
    · exact hn _ List.mem_cons_self

/-- What makes an array legal, part by part (rule R21). -/
theorem TArray.wf_iff {α : Type} (m : Option Nat) (x : TArray α) :
    x.wf m = true ↔ (1 ≤ x.shape.length ∧ x.shape.length ≤ 8) ∧ (∀ d ∈ x.shape, 1 ≤ d ∧ d < 2 ^ 32) ∧
      fits m (shapeSize x.shape) = true ∧ x.data.length = shapeSize x.shape := by
  simp only [TArray.wf, Bool.and_eq_true, decide_eq_true_eq, List.all_eq_true]
  tauto

end Sys2Proof.Machine
end

