-- ==== Sys2Proof/Laws/Commands.lean ====
section
/-! SUPPORT. Laws of the checks and the commands: what a check that passes has established, and that the result of every
command is a legal array. -/

namespace Sys2Proof.Machine

/-- A canonical axis is an axis of the array (rule R130). -/
theorem canon_lt {a : Int} {r c : Nat} (h : canon a r = some c) : c < r := by
  unfold canon at h
  split at h
  · simp only [Option.some.injEq] at h; omega
  · split at h
    · simp only [Option.some.injEq] at h; omega
    · cases h

theorem canonAll_lt : ∀ {as : List Int} {r : Nat} {cs : List Nat}, canonAll as r = some cs → ∀ c ∈ cs, c < r
  | [], _, _, h, c, hc => by simp only [canonAll, Option.some.injEq] at h; subst h; simp at hc
  | a :: as, r, cs, h, c, hc => by
    simp only [canonAll] at h
    split at h
    · cases h
    · rename_i c' h1
      split at h
      · cases h
      · rename_i cs' h2
        simp only [Option.some.injEq] at h
        subst h
        rcases List.mem_cons.1 hc with rfl | hc
        · exact canon_lt h1
        · exact canonAll_lt h2 c hc

theorem canonAll_length : ∀ {as : List Int} {r : Nat} {cs : List Nat}, canonAll as r = some cs → cs.length = as.length
  | [], _, _, h => by simp only [canonAll, Option.some.injEq] at h; subst h; rfl
  | a :: as, r, cs, h => by
    simp only [canonAll] at h
    split at h
    · cases h
    · split at h
      · cases h
      · rename_i cs' h2
        simp only [Option.some.injEq] at h
        subst h
        simp [canonAll_length h2]

/-- What the shape checks of `DCT` and `IDCT` have established when they pass (rule R229, steps 7, 9, 10). -/
theorem check1_ok {m : Option Nat} {f : Fields} {axis len : Vector Word 8} {sh : List Nat} {a n : Nat}
    (h : check1 m f axis len sh = .ok (a, n)) :
    canon (axisRaw1 f axis) sh.length = some a ∧ n = targetLen f len sh a ∧ (f.lg = true → n ≠ 0) ∧
      fits m (shapeSize (sh.set a n)) = true := by
  unfold check1 at h
  split at h
  · cases h
  · rename_i c hc
    split at h
    · cases h
    · rename_i h1
      split at h
      · cases h
      · rename_i h2
        simp only [Except.ok.injEq, Prod.mk.injEq] at h
        obtain ⟨rfl, rfl⟩ := h
        exact ⟨hc, rfl, fun hl h0 => h1 ⟨hl, h0⟩, by simpa using h2⟩

/-- What the list checks of `DCTN` and `IDCTN` have established when they pass (rule R166). -/
theorem checkN_ok {m : Option Nat} {f : Fields} {axis len : Vector Word 8} {sh : List Nat} {axes : List Nat}
    {lens : Option (List Nat)} (h : checkN m f axis len sh = .ok (axes, lens)) :
    canonAll (axesRaw f axis sh.length) sh.length = some axes ∧ axes.Nodup ∧ lens = lensOf f len ∧
      0 ∉ lens.getD [] ∧ fits m (shapeSize (adaptedShape sh axes lens)) = true := by
  unfold checkN at h
  split at h
  · cases h
  · split at h
    · cases h
    · split at h
      · cases h
      · split at h
        · cases h
        · rename_i axes' hc
          split at h
          · cases h
          · rename_i hn
            split at h
            · cases h
            · rename_i h0
              split at h
              · cases h
              · rename_i hf
                simp only [Except.ok.injEq, Prod.mk.injEq] at h
                obtain ⟨rfl, rfl⟩ := h
                exact ⟨hc, not_not.1 hn, rfl, h0, by simpa using hf⟩

theorem lenValue_lt (v : Word) : lenValue v < 2 ^ 32 := v.isLt

/-- Every entry of a length list is a 32-bit unsigned integer (rule R26). -/
theorem lensOf_lt {f : Fields} {len : Vector Word 8} : ∀ n ∈ (lensOf f len).getD [], n < 2 ^ 32 := by
  unfold lensOf
  split
  · intro n hn
    simp only [Option.getD_some, List.mem_map] at hn
    obtain ⟨v, -, rfl⟩ := hn
    exact lenValue_lt v
  · simp

/-- A legal array stays legal when the extents of some axes are replaced by legal ones, the result fits and it is full. -/
theorem wf_of_extents {α : Type} {m : Option Nat} {x y : TArray α} (hx : x.wf m = true)
    (hl : y.shape.length = x.shape.length) (hd : ∀ d ∈ y.shape, 1 ≤ d ∧ d < 2 ^ 32) (hf : fits m (shapeSize y.shape) = true)
    (hn : y.data.length = shapeSize y.shape) : y.wf m = true := by
  rw [TArray.wf_iff] at hx ⊢
  exact ⟨by rw [hl]; exact hx.1, hd, hf, hn⟩

/-- The result of a command along one axis is a legal array, for a kernel that keeps the shape (rules R22, R137). -/
theorem command1_wf {α : Type} {p : Params α} {legal : Bool} {kernel : Norm → Nat → TArray α → TArray α} {f : Fields}
    {axis len : Vector Word 8} {src : AReg α} {y : TArray α} (hk : ∀ nm a x, (kernel nm a x).shape = x.shape)
    (hd : ∀ nm a x, (kernel nm a x).data.length = shapeSize x.shape) (hs : src.wf p.maxElems = true)
    (h : command1 p legal kernel f axis len src = .ok y) : y.wf p.maxElems = true := by
  unfold command1 at h
  split at h
  · cases h
  · split at h
    · cases h
    · rename_i x hx
      split at h
      · cases h
      · rename_i a n hc
        simp only [Except.ok.injEq] at h
        subst h
        have hxw : x.wf p.maxElems = true := by
          cases src with
          | empty => cases hx
          | array x' => simp only [checkSource, Except.ok.injEq] at hx; subst hx; exact hs
        obtain ⟨hca, hn, h0, hf⟩ := check1_ok hc
        have hal := canon_lt hca
        obtain ⟨hr, hext, -, -⟩ := (TArray.wf_iff _ _).1 hxw
        have hn1 : 1 ≤ n ∧ n < 2 ^ 32 := by
          rw [hn] at h0 ⊢
          unfold targetLen at h0 ⊢
          split
          · rename_i hl
            exact ⟨Nat.pos_of_ne_zero (by simpa [hl] using h0 hl), lenValue_lt _⟩
          · refine hext _ ?_
            rw [List.getD_eq_getElem?_getD, List.getElem?_eq_getElem hal]
            exact List.getElem_mem hal
        refine wf_of_extents hxw (by simp [hk]) (fun d hd' => ?_) (by simpa [hk] using hf) (by simp [hk, hd])
        simp only [hk, adapt_shape] at hd'
        rcases List.mem_or_eq_of_mem_set hd' with h' | rfl
        · exact hext d h'
        · exact hn1

@[simp] theorem idct1Along_shape {α : Type} (num : Numerics α) (nm : Norm) (a : Nat) (x : TArray α) :
    (idct1Along num nm a x).shape = x.shape := rfl
@[simp] theorem idct1Along_length {α : Type} (num : Numerics α) (nm : Norm) (a : Nat) (x : TArray α) :
    (idct1Along num nm a x).data.length = shapeSize x.shape := by simp [idct1Along]
@[simp] theorem dct2d_shape {α : Type} (num : Numerics α) (nm : Norm) (p q : Nat) (x : TArray α) :
    (dct2d num nm p q x).shape = x.shape := by cases nm <;> rfl
@[simp] theorem dct2d_length {α : Type} (num : Numerics α) (nm : Norm) (p q : Nat) (x : TArray α) :
    (dct2d num nm p q x).data.length = shapeSize x.shape := by cases nm <;> simp [dct2d, nrmAlong]

theorem fwd_full {α : Type} (num : Numerics α) (nm : Norm) : ∀ (axes : List Nat) (x : TArray α),
    x.data.length = shapeSize x.shape →
      (fwd num nm axes x).shape = x.shape ∧ (fwd num nm axes x).data.length = shapeSize x.shape
  | [], x, h => ⟨rfl, h⟩
  | [a], x, _ => by simp [fwd]
  | p :: q :: axes, x, _ => by
    have := fwd_full num nm axes (dct2d num nm p q x) (by simp)
    simpa [fwd] using this

theorem inv_full {α : Type} (num : Numerics α) (nm : Norm) : ∀ (axes : List Nat) (x : TArray α),
    x.data.length = shapeSize x.shape →
      (inv num nm axes x).shape = x.shape ∧ (inv num nm axes x).data.length = shapeSize x.shape
  | [], x, h => ⟨rfl, h⟩
  | a :: axes, x, _ => by
    have := inv_full num nm axes (idct1Along num nm a x) (by simp)
    simpa [inv] using this

@[simp] theorem adaptAll_shape {α : Type} (num : Numerics α) (x : TArray α) (axes : List Nat) (lens : Option (List Nat)) :
    (adaptAll num x axes lens).shape = adaptedShape x.shape axes lens := by cases lens <;> rfl

theorem adaptAll_full {α : Type} (num : Numerics α) {x : TArray α} (axes : List Nat) (lens : Option (List Nat))
    (h : x.data.length = shapeSize x.shape) :
    (adaptAll num x axes lens).data.length = shapeSize (adaptAll num x axes lens).shape := by
  cases lens with
  | none => exact h
  | some l => simp [adaptAll, adaptN, refit]

/-- The result of a command over a list of axes is a legal array, for a composition that keeps the shape (rules R22, R175,
R177). -/
theorem commandN_wf {α : Type} {p : Params α} {legal : Bool} {kernel : Norm → List Nat → TArray α → TArray α} {f : Fields}
    {axis len : Vector Word 8} {src : AReg α} {y : TArray α}
    (hk : ∀ nm axes x, x.data.length = shapeSize x.shape →
      (kernel nm axes x).shape = x.shape ∧ (kernel nm axes x).data.length = shapeSize x.shape)
    (hs : src.wf p.maxElems = true) (h : commandN p legal kernel f axis len src = .ok y) : y.wf p.maxElems = true := by
  unfold commandN at h
  split at h
  · cases h
  · rename_i nm _
    split at h
    · cases h
    · rename_i x hx
      split at h
      · cases h
      · rename_i axes lens hc
        simp only [Except.ok.injEq] at h
        subst h
        have hxw : x.wf p.maxElems = true := by
          cases src with
          | empty => cases hx
          | array x' => simp only [checkSource, Except.ok.injEq] at hx; subst hx; exact hs
        obtain ⟨-, -, hle, h0, hf⟩ := checkN_ok hc
        obtain ⟨hr, hext, -, hfull⟩ := (TArray.wf_iff _ _).1 hxw
        obtain ⟨ks, kd⟩ := hk nm axes _ (adaptAll_full p.num axes lens hfull)
        refine wf_of_extents hxw ?_ (fun d hd' => ?_) (by rw [ks, adaptAll_shape]; exact hf) (by rw [kd, ks])
        · rw [ks, adaptAll_shape]
          cases lens <;> simp [adaptedShape]
        · rw [ks, adaptAll_shape] at hd'
          cases lens with
          | none => exact hext d hd'
          | some l =>
            refine setExtents_all (P := fun d => 1 ≤ d ∧ d < 2 ^ 32) hext (fun n hn => ?_) d hd'
            have hn' : n ∈ (lensOf f len).getD [] := by rw [← hle]; exact hn
            have : n ≠ 0 := fun e => h0 (by rw [← e]; exact hn)
            exact ⟨Nat.pos_of_ne_zero this, lensOf_lt n hn'⟩

/-- Every command that completes on a legal source gives a legal array. -/
theorem dctCommand_wf {α : Type} {p : Params α} {f : Fields} {axis len : Vector Word 8} {src : AReg α} {y : TArray α}
    (hs : src.wf p.maxElems = true) (h : dctCommand p f axis len src = .ok y) : y.wf p.maxElems = true :=
  command1_wf (fun _ _ _ => fwd1_shape _ _ _ _) (fun _ _ _ => fwd1_length _ _ _ _) hs h

theorem idctCommand_wf {α : Type} {p : Params α} {f : Fields} {axis len : Vector Word 8} {src : AReg α} {y : TArray α}
    (hs : src.wf p.maxElems = true) (h : idctCommand p f axis len src = .ok y) : y.wf p.maxElems = true :=
  command1_wf (fun _ _ _ => idct1Along_shape _ _ _ _) (fun _ _ _ => idct1Along_length _ _ _ _) hs h

theorem dctnCommand_wf {α : Type} {p : Params α} {f : Fields} {axis len : Vector Word 8} {src : AReg α} {y : TArray α}
    (hs : src.wf p.maxElems = true) (h : dctnCommand p f axis len src = .ok y) : y.wf p.maxElems = true :=
  commandN_wf (fun _ _ _ hx => fwd_full _ _ _ _ hx) hs h

theorem idctnCommand_wf {α : Type} {p : Params α} {f : Fields} {axis len : Vector Word 8} {src : AReg α} {y : TArray α}
    (hs : src.wf p.maxElems = true) (h : idctnCommand p f axis len src = .ok y) : y.wf p.maxElems = true :=
  commandN_wf (fun _ _ _ hx => inv_full _ _ _ _ hx) hs h

end Sys2Proof.Machine
end

