-- ==== Sys2Proof/Laws/Encoding.lean ====
section
/-! SUPPORT. The fields of an encoded word read back: the layout of rule R71 drops and mixes no bit. -/

namespace Sys2Proof

/-- A placed field's bits stand from its position on, and nowhere else. -/
theorem getLsbD_place {n : Nat} (v : BitVec n) (lo j : Nat) :
    (place v lo).getLsbD j = (decide (j < 32) && decide (lo ≤ j) && v.getLsbD (j - lo)) := by
  simp only [place, BitVec.getLsbD_shiftLeft, BitVec.getLsbD_setWidth]
  by_cases h1 : j < 32
  · have h3 : j - lo < 32 := by omega
    by_cases h2 : lo ≤ j
    · simp [h1, h2, h3]
    · simp [h1, h2, Nat.lt_of_not_le h2]
  · simp [h1]

/-- A slice of a word is a field when their bits agree. -/
theorem extractLsb'_eq {n : Nat} (v : BitVec n) (lo : Nat) (w : Word) (h : ∀ j < n, w.getLsbD (lo + j) = v.getLsbD j) :
    w.extractLsb' lo n = v := by
  apply BitVec.eq_of_getLsbD_eq
  intro j hj
  simp [hj, h j hj]

theorem opcField_encodeFields (o : BitVec 4) (f : Fields) : opcField (encodeFields o f) = o := by
  refine extractLsb'_eq _ _ _ fun j hj => ?_
  simp only [encodeFields, BitVec.getLsbD_or, getLsbD_place]
  interval_cases j <;> simp

theorem reservedField_encodeFields (o : BitVec 4) (f : Fields) : reservedField (encodeFields o f) = 0#8 := by
  refine extractLsb'_eq _ _ _ fun j hj => ?_
  simp only [encodeFields, BitVec.getLsbD_or, getLsbD_place]
  interval_cases j <;> simp

theorem fieldsOf_encodeFields (o : BitVec 4) (f : Fields) : fieldsOf (encodeFields o f) = f := by
  obtain ⟨type, norm, lg, ag, nax, nlen, rs, rd⟩ := f
  simp only [fieldsOf, Fields.mk.injEq]
  refine ⟨extractLsb'_eq _ _ _ ?_, extractLsb'_eq _ _ _ ?_, ?_, ?_, extractLsb'_eq _ _ _ ?_, extractLsb'_eq _ _ _ ?_,
    congrArg BitVec.toFin (extractLsb'_eq (BitVec.ofFin rs : BitVec 2) _ _ ?_),
    congrArg BitVec.toFin (extractLsb'_eq (BitVec.ofFin rd : BitVec 2) _ _ ?_)⟩
  case refine_3 => simp only [encodeFields, BitVec.getLsbD_or, getLsbD_place]; simp
  case refine_4 => simp only [encodeFields, BitVec.getLsbD_or, getLsbD_place]; simp
  all_goals
    intro j hj
    simp only [encodeFields, BitVec.getLsbD_or, getLsbD_place]
    interval_cases j <;> simp

end Sys2Proof
end

