-- ==== Sys2Proof/Laws/Ideal.lean ====
section
/-! SUPPORT. Laws of the ideal numerics: its pair arithmetic is the arithmetic of the complex numbers, its twiddle factor is an
exponential, and its collaborator's values are Mathlib sums. -/

namespace Sys2Proof.Machine

@[simp] theorem toComplex_ofComplex (z : ℂ) : toComplex (ofComplex z) = z := rfl
@[simp] theorem ofComplex_toComplex (z : Cx ℝ) : ofComplex (toComplex z) = z := rfl
@[simp] theorem toComplex_re (z : Cx ℝ) : (toComplex z).re = z.re := rfl
@[simp] theorem toComplex_im (z : Cx ℝ) : (toComplex z).im = z.im := rfl

/-- Pairs with the same complex number are equal. -/
theorem toComplex_inj {x y : Cx ℝ} (h : toComplex x = toComplex y) : x = y := by
  rw [← ofComplex_toComplex x, h, ofComplex_toComplex]

theorem toComplex_add (x y : Cx ℝ) : toComplex (Cx.add ideal x y) = toComplex x + toComplex y := by
  apply Complex.ext <;> simp [toComplex, Cx.add, ideal]

theorem toComplex_mul (x y : Cx ℝ) : toComplex (Cx.mul ideal x y) = toComplex x * toComplex y := by
  apply Complex.ext <;> simp [toComplex, Cx.mul, ideal]

theorem toComplex_div (x y : Cx ℝ) : toComplex (Cx.div ideal x y) = toComplex x / toComplex y := by
  apply Complex.ext
  · simp only [toComplex, Cx.div, ideal, Complex.div_re, Complex.normSq_mk]; ring
  · simp only [toComplex, Cx.div, ideal, Complex.div_im, Complex.normSq_mk]; ring

theorem toComplex_conj (x : Cx ℝ) : toComplex (Cx.conj ideal x) = (starRingEnd ℂ) (toComplex x) := by
  apply Complex.ext <;> simp [toComplex, Cx.conj, ideal]

theorem toComplex_promote (v : ℝ) : toComplex (promote ideal v) = (v : ℂ) := by
  apply Complex.ext <;> simp [toComplex, promote, ideal]

theorem toComplex_sum (N : Nat) (f : Fin N → Cx ℝ) : toComplex (Cx.sum ideal N f) = ∑ n, toComplex (f n) := by
  have h : ∀ (l : List (Fin N)) (a : Cx ℝ), toComplex (l.foldl (fun acc n => Cx.add ideal acc (f n)) a) =
      toComplex a + (l.map fun n => toComplex (f n)).sum := by
    intro l
    induction l with
    | nil => simp
    | cons b l ih => intro a; simp [ih, toComplex_add, add_assoc]
  rw [Cx.sum, h, toComplex_promote, Fin.sum_univ_def]
  simp [ideal]

theorem toComplex_W (N : Nat) (k : Int) :
    toComplex (W ideal N k) = Complex.exp ((-(Real.pi * k / (2 * N)) : ℝ) * Complex.I) := by
  apply Complex.ext
  · rw [Complex.exp_ofReal_mul_I_re]; simp [W, ideal, Real.cos_neg]
  · rw [Complex.exp_ofReal_mul_I_im]; simp [W, ideal, Real.sin_neg]

theorem toComplex_fft (N : Nat) (z : Fin N → Cx ℝ) (k : Fin N) : toComplex (ideal.fft N z k) =
    ∑ n : Fin N, toComplex (z n) * Complex.exp ((-(2 * Real.pi * n.val * k.val / N) : ℝ) * Complex.I) := by
  change (∑ n : Fin N, toComplex (z n) * Complex.exp (-2 * Real.pi * Complex.I * n.val * k.val / N)) = _
  refine Finset.sum_congr rfl fun n _ => ?_
  congr 2; push_cast; ring

theorem toComplex_ifft (N : Nat) (Z : Fin N → Cx ℝ) (n : Fin N) : toComplex (ideal.ifft N Z n) =
    1 / N * ∑ k : Fin N, toComplex (Z k) * Complex.exp ((2 * Real.pi * n.val * k.val / N : ℝ) * Complex.I) := by
  change 1 / (N : ℂ) * (∑ k : Fin N, toComplex (Z k) * Complex.exp (2 * Real.pi * Complex.I * n.val * k.val / N)) = _
  congr 1
  refine Finset.sum_congr rfl fun k _ => ?_
  congr 2; push_cast; ring

theorem toComplex_fft2 (N1 N2 : Nat) (z : Fin N1 → Fin N2 → Cx ℝ) (k1 : Fin N1) (k2 : Fin N2) :
    toComplex (ideal.fft2 N1 N2 z k1 k2) = ∑ n1 : Fin N1, ∑ n2 : Fin N2, toComplex (z n1 n2) *
      Complex.exp ((-(2 * Real.pi * (n1.val * k1.val / N1 + n2.val * k2.val / N2)) : ℝ) * Complex.I) := by
  change (∑ n1 : Fin N1, ∑ n2 : Fin N2, toComplex (z n1 n2) *
      Complex.exp (-2 * Real.pi * Complex.I * (n1.val * k1.val / N1 + n2.val * k2.val / N2))) = _
  refine Finset.sum_congr rfl fun n1 _ => Finset.sum_congr rfl fun n2 _ => ?_
  congr 2; push_cast; ring

end Sys2Proof.Machine
end

