-- ==== Sys2Proof/Laws/State.lean ====
section
/-! SUPPORT. One lemma per field per update of the state, and reading an array register after writing one, so that no later
proof unfolds a record update. -/

namespace Sys2Proof.Machine

@[simp] theorem Engine.raise_arrays {Re : Type} (s : Engine Re) (e : Cause) : (s.raise e).arrays = s.arrays := rfl
@[simp] theorem Engine.raise_cmd {Re : Type} (s : Engine Re) (e : Cause) : (s.raise e).cmd = s.cmd := rfl
@[simp] theorem Engine.raise_axis {Re : Type} (s : Engine Re) (e : Cause) : (s.raise e).axis = s.axis := rfl
@[simp] theorem Engine.raise_len {Re : Type} (s : Engine Re) (e : Cause) : (s.raise e).len = s.len := rfl
@[simp] theorem Engine.raise_done {Re : Type} (s : Engine Re) (e : Cause) : (s.raise e).done = false := rfl
@[simp] theorem Engine.raise_fault {Re : Type} (s : Engine Re) (e : Cause) : (s.raise e).fault = true := rfl
@[simp] theorem Engine.raise_ecode {Re : Type} (s : Engine Re) (e : Cause) : (s.raise e).ecode = e.code := rfl
@[simp] theorem Engine.raise_seq {Re : Type} (s : Engine Re) (e : Cause) : (s.raise e).seq = s.seq := rfl

@[simp] theorem Engine.acknowledge_arrays {Re : Type} (s : Engine Re) : (s.acknowledge).arrays = s.arrays := rfl
@[simp] theorem Engine.acknowledge_cmd {Re : Type} (s : Engine Re) : (s.acknowledge).cmd = s.cmd := rfl
@[simp] theorem Engine.acknowledge_axis {Re : Type} (s : Engine Re) : (s.acknowledge).axis = s.axis := rfl
@[simp] theorem Engine.acknowledge_len {Re : Type} (s : Engine Re) : (s.acknowledge).len = s.len := rfl
@[simp] theorem Engine.acknowledge_done {Re : Type} (s : Engine Re) : (s.acknowledge).done = s.done := rfl
@[simp] theorem Engine.acknowledge_fault {Re : Type} (s : Engine Re) : (s.acknowledge).fault = false := rfl
@[simp] theorem Engine.acknowledge_ecode {Re : Type} (s : Engine Re) : (s.acknowledge).ecode = 0#4 := rfl
@[simp] theorem Engine.acknowledge_seq {Re : Type} (s : Engine Re) : (s.acknowledge).seq = s.seq := rfl

@[simp] theorem Engine.markDone_arrays {Re : Type} (s : Engine Re) : (s.markDone).arrays = s.arrays := rfl
@[simp] theorem Engine.markDone_cmd {Re : Type} (s : Engine Re) : (s.markDone).cmd = s.cmd := rfl
@[simp] theorem Engine.markDone_axis {Re : Type} (s : Engine Re) : (s.markDone).axis = s.axis := rfl
@[simp] theorem Engine.markDone_len {Re : Type} (s : Engine Re) : (s.markDone).len = s.len := rfl
@[simp] theorem Engine.markDone_done {Re : Type} (s : Engine Re) : (s.markDone).done = true := rfl
@[simp] theorem Engine.markDone_fault {Re : Type} (s : Engine Re) : (s.markDone).fault = s.fault := rfl
@[simp] theorem Engine.markDone_ecode {Re : Type} (s : Engine Re) : (s.markDone).ecode = s.ecode := rfl
@[simp] theorem Engine.markDone_seq {Re : Type} (s : Engine Re) : (s.markDone).seq = s.seq + 1#32 := rfl

@[simp] theorem Engine.writeA_arrays {Re : Type} (s : Engine Re) (i : Fin 4) (v : AReg Re) : (s.writeA i v).arrays = s.arrays.set i v := rfl
@[simp] theorem Engine.writeA_cmd {Re : Type} (s : Engine Re) (i : Fin 4) (v : AReg Re) : (s.writeA i v).cmd = s.cmd := rfl
@[simp] theorem Engine.writeA_axis {Re : Type} (s : Engine Re) (i : Fin 4) (v : AReg Re) : (s.writeA i v).axis = s.axis := rfl
@[simp] theorem Engine.writeA_len {Re : Type} (s : Engine Re) (i : Fin 4) (v : AReg Re) : (s.writeA i v).len = s.len := rfl
@[simp] theorem Engine.writeA_done {Re : Type} (s : Engine Re) (i : Fin 4) (v : AReg Re) : (s.writeA i v).done = s.done := rfl
@[simp] theorem Engine.writeA_fault {Re : Type} (s : Engine Re) (i : Fin 4) (v : AReg Re) : (s.writeA i v).fault = s.fault := rfl
@[simp] theorem Engine.writeA_ecode {Re : Type} (s : Engine Re) (i : Fin 4) (v : AReg Re) : (s.writeA i v).ecode = s.ecode := rfl
@[simp] theorem Engine.writeA_seq {Re : Type} (s : Engine Re) (i : Fin 4) (v : AReg Re) : (s.writeA i v).seq = s.seq := rfl

@[simp] theorem Engine.complete_arrays {Re : Type} (s : Engine Re) (rd : Fin 4) (y : TArray Re) : (s.complete rd y).arrays = s.arrays.set rd (.array y) := rfl
@[simp] theorem Engine.complete_cmd {Re : Type} (s : Engine Re) (rd : Fin 4) (y : TArray Re) : (s.complete rd y).cmd = s.cmd := rfl
@[simp] theorem Engine.complete_axis {Re : Type} (s : Engine Re) (rd : Fin 4) (y : TArray Re) : (s.complete rd y).axis = s.axis := rfl
@[simp] theorem Engine.complete_len {Re : Type} (s : Engine Re) (rd : Fin 4) (y : TArray Re) : (s.complete rd y).len = s.len := rfl
@[simp] theorem Engine.complete_done {Re : Type} (s : Engine Re) (rd : Fin 4) (y : TArray Re) : (s.complete rd y).done = true := rfl
@[simp] theorem Engine.complete_fault {Re : Type} (s : Engine Re) (rd : Fin 4) (y : TArray Re) : (s.complete rd y).fault = s.fault := rfl
@[simp] theorem Engine.complete_ecode {Re : Type} (s : Engine Re) (rd : Fin 4) (y : TArray Re) : (s.complete rd y).ecode = s.ecode := rfl
@[simp] theorem Engine.complete_seq {Re : Type} (s : Engine Re) (rd : Fin 4) (y : TArray Re) : (s.complete rd y).seq = s.seq + 1#32 := rfl

@[simp] theorem State.record_arrays (s : State) (v : ReadValue Elem) : (s.record v).arrays = s.arrays := rfl
@[simp] theorem State.record_cmd (s : State) (v : ReadValue Elem) : (s.record v).cmd = s.cmd := rfl
@[simp] theorem State.record_axis (s : State) (v : ReadValue Elem) : (s.record v).axis = s.axis := rfl
@[simp] theorem State.record_len (s : State) (v : ReadValue Elem) : (s.record v).len = s.len := rfl
@[simp] theorem State.record_done (s : State) (v : ReadValue Elem) : (s.record v).done = s.done := rfl
@[simp] theorem State.record_fault (s : State) (v : ReadValue Elem) : (s.record v).fault = s.fault := rfl
@[simp] theorem State.record_ecode (s : State) (v : ReadValue Elem) : (s.record v).ecode = s.ecode := rfl
@[simp] theorem State.record_seq (s : State) (v : ReadValue Elem) : (s.record v).seq = s.seq := rfl
@[simp] theorem State.record_pending (s : State) (v : ReadValue Elem) : (s.record v).pending = s.pending := rfl
@[simp] theorem State.record_reads (s : State) (v : ReadValue Elem) : (s.record v).reads = s.reads ++ [v] := rfl

@[simp] theorem State.resetEngine_arrays (s : State) : (s.resetEngine).arrays = Vector.replicate 4 .empty := rfl
@[simp] theorem State.resetEngine_cmd (s : State) : (s.resetEngine).cmd = 0#32 := rfl
@[simp] theorem State.resetEngine_axis (s : State) : (s.resetEngine).axis = Vector.replicate 8 0#32 := rfl
@[simp] theorem State.resetEngine_len (s : State) : (s.resetEngine).len = Vector.replicate 8 0#32 := rfl
@[simp] theorem State.resetEngine_done (s : State) : (s.resetEngine).done = false := rfl
@[simp] theorem State.resetEngine_fault (s : State) : (s.resetEngine).fault = false := rfl
@[simp] theorem State.resetEngine_ecode (s : State) : (s.resetEngine).ecode = 0#4 := rfl
@[simp] theorem State.resetEngine_seq (s : State) : (s.resetEngine).seq = 0#32 := rfl
@[simp] theorem State.resetEngine_pending (s : State) : (s.resetEngine).pending = s.pending := rfl
@[simp] theorem State.resetEngine_reads (s : State) : (s.resetEngine).reads = s.reads := rfl

@[simp] theorem Engine.store_axis_arrays {Re : Type} (s : Engine Re) (j : Fin 8) (v : Word) : (s.storeReg (.axis j) v).arrays = s.arrays := rfl
@[simp] theorem Engine.store_axis_cmd {Re : Type} (s : Engine Re) (j : Fin 8) (v : Word) : (s.storeReg (.axis j) v).cmd = s.cmd := rfl
@[simp] theorem Engine.store_axis_axis {Re : Type} (s : Engine Re) (j : Fin 8) (v : Word) : (s.storeReg (.axis j) v).axis = s.axis.set j v := rfl
@[simp] theorem Engine.store_axis_len {Re : Type} (s : Engine Re) (j : Fin 8) (v : Word) : (s.storeReg (.axis j) v).len = s.len := rfl
@[simp] theorem Engine.store_axis_done {Re : Type} (s : Engine Re) (j : Fin 8) (v : Word) : (s.storeReg (.axis j) v).done = s.done := rfl
@[simp] theorem Engine.store_axis_fault {Re : Type} (s : Engine Re) (j : Fin 8) (v : Word) : (s.storeReg (.axis j) v).fault = s.fault := rfl
@[simp] theorem Engine.store_axis_ecode {Re : Type} (s : Engine Re) (j : Fin 8) (v : Word) : (s.storeReg (.axis j) v).ecode = s.ecode := rfl
@[simp] theorem Engine.store_axis_seq {Re : Type} (s : Engine Re) (j : Fin 8) (v : Word) : (s.storeReg (.axis j) v).seq = s.seq := rfl

@[simp] theorem Engine.store_len_arrays {Re : Type} (s : Engine Re) (j : Fin 8) (v : Word) : (s.storeReg (.len j) v).arrays = s.arrays := rfl
@[simp] theorem Engine.store_len_cmd {Re : Type} (s : Engine Re) (j : Fin 8) (v : Word) : (s.storeReg (.len j) v).cmd = s.cmd := rfl
@[simp] theorem Engine.store_len_axis {Re : Type} (s : Engine Re) (j : Fin 8) (v : Word) : (s.storeReg (.len j) v).axis = s.axis := rfl
@[simp] theorem Engine.store_len_len {Re : Type} (s : Engine Re) (j : Fin 8) (v : Word) : (s.storeReg (.len j) v).len = s.len.set j v := rfl
@[simp] theorem Engine.store_len_done {Re : Type} (s : Engine Re) (j : Fin 8) (v : Word) : (s.storeReg (.len j) v).done = s.done := rfl
@[simp] theorem Engine.store_len_fault {Re : Type} (s : Engine Re) (j : Fin 8) (v : Word) : (s.storeReg (.len j) v).fault = s.fault := rfl
@[simp] theorem Engine.store_len_ecode {Re : Type} (s : Engine Re) (j : Fin 8) (v : Word) : (s.storeReg (.len j) v).ecode = s.ecode := rfl
@[simp] theorem Engine.store_len_seq {Re : Type} (s : Engine Re) (j : Fin 8) (v : Word) : (s.storeReg (.len j) v).seq = s.seq := rfl

@[simp] theorem Engine.store_status {Re : Type} (s : Engine Re) (v : Word) : s.storeReg .status v = s := rfl
@[simp] theorem Engine.store_seq {Re : Type} (s : Engine Re) (v : Word) : s.storeReg .seq v = s := rfl
@[simp] theorem Engine.store_fclr {Re : Type} (s : Engine Re) (v : Word) : s.storeReg .fclr v = s.acknowledge := rfl

/-- A write of one array register changes no other (rule R21). -/
theorem Engine.readA_writeA_of_ne {Re : Type} (s : Engine Re) {i j : Fin 4} (v : AReg Re) (h : j ≠ i) :
    (s.writeA i v).readA j = s.readA j := by
  have h' : i.val ≠ j.val := fun e => h (Fin.ext e.symm)
  simp [Engine.readA, Engine.writeA, Fin.getElem_fin, Vector.getElem_set_ne _ _ h']

/-- An array register holds what was last written to it. -/
@[simp] theorem Engine.readA_writeA_self {Re : Type} (s : Engine Re) (i : Fin 4) (v : AReg Re) :
    (s.writeA i v).readA i = v := by
  simp [Engine.readA, Engine.writeA, Fin.getElem_fin]

@[simp] theorem Engine.readA_raise {Re : Type} (s : Engine Re) (e : Cause) (i : Fin 4) : (s.raise e).readA i = s.readA i := rfl
@[simp] theorem Engine.readA_acknowledge {Re : Type} (s : Engine Re) (i : Fin 4) : s.acknowledge.readA i = s.readA i := rfl
@[simp] theorem State.record_toEngine (s : State) (v : ReadValue Elem) : (s.record v).toEngine = s.toEngine := rfl
@[simp] theorem State.resetEngine_toEngine (s : State) : s.resetEngine.toEngine = Engine.reset := rfl
@[simp] theorem Engine.readA_complete_self {Re : Type} (s : Engine Re) (rd : Fin 4) (y : TArray Re) :
    (s.complete rd y).readA rd = .array y := Engine.readA_writeA_self s rd (.array y)

theorem Engine.readA_complete_of_ne {Re : Type} (s : Engine Re) {rd j : Fin 4} (y : TArray Re) (h : j ≠ rd) :
    (s.complete rd y).readA j = s.readA j := Engine.readA_writeA_of_ne s (.array y) h

/-- The sizes of the register files are the parameters of the configuration record (rule R6). -/
theorem Params.sizes {Re : Type} (p : Params Re) (s : Engine Re) : s.arrays.toList.length = p.nslot ∧
    s.axis.toList.length = p.maxRank ∧ s.len.toList.length = p.maxRank := by
  simp [p.nslot_fixed, p.maxRank_fixed]

end Sys2Proof.Machine
end

