-- ==== Sys2Proof/Laws/Ops.lean ====
section
/-! SUPPORT. One lemma per shared operation that says everything it can do, and that every operation keeps the element stores
legal. -/

namespace Sys2Proof.Machine

/-- One element always fits: `MAX_ELEMS` is at least 1 (rule R6). -/
@[simp] theorem fits_one : fits Config.maxElems 1 = true := by
  unfold fits Config.maxElems
  cases Config.capacity <;> simp

@[simp] theorem params_maxElems : Config.params.maxElems = Config.maxElems := rfl
@[simp] theorem params_num : Config.params.num = Config.num := rfl

/-- The element stores are legal exactly when each array register is. -/
theorem Memory.wf_iff {Re : Type} (c : Option Nat) (m : Memory Re) :
    Memory.wf c m = true ↔ ∀ i : Fin 4, (m[i]).wf c = true := by
  simp only [Memory.wf, List.all_eq_true, Vector.mem_toList_iff]
  constructor
  · intro h i
    exact h _ (by simp [Fin.getElem_fin])
  · intro h r hr
    obtain ⟨i, hi, rfl⟩ := Vector.getElem_of_mem hr
    exact h ⟨i, hi⟩

theorem Engine.readA_wf {Re : Type} {c : Option Nat} {s : Engine Re} (h : Memory.wf c s.arrays = true) (i : Fin 4) :
    (s.readA i).wf c = true := (Memory.wf_iff _ _).1 h i

/-- Writing a legal value keeps the element stores legal. -/
theorem Engine.writeA_keeps_wf {Re : Type} {c : Option Nat} {s : Engine Re} (h : Memory.wf c s.arrays = true) (i : Fin 4)
    {v : AReg Re} (hv : v.wf c = true) : Memory.wf c (s.writeA i v).arrays = true := by
  rw [Memory.wf_iff]
  intro j
  by_cases hj : j = i
  · subst hj
    have := Engine.readA_writeA_self s j v
    unfold Engine.readA at this
    rw [this]; exact hv
  · have := Engine.readA_writeA_of_ne s v hj
    unfold Engine.readA at this
    rw [this]; exact (Memory.wf_iff _ _).1 h j

theorem Engine.complete_keeps_wf {Re : Type} {c : Option Nat} {s : Engine Re} (h : Memory.wf c s.arrays = true) (rd : Fin 4)
    {y : TArray Re} (hy : y.wf c = true) : Memory.wf c (s.complete rd y).arrays = true :=
  Engine.writeA_keeps_wf h rd (v := .array y) hy

theorem Engine.raise_keeps_wf {Re : Type} {c : Option Nat} {s : Engine Re} (h : Memory.wf c s.arrays = true) (e : Cause) :
    Memory.wf c (s.raise e).arrays = true := h

theorem Engine.acknowledge_keeps_wf {Re : Type} {c : Option Nat} {s : Engine Re} (h : Memory.wf c s.arrays = true) :
    Memory.wf c s.acknowledge.arrays = true := h

theorem Engine.storeReg_keeps_wf {Re : Type} {c : Option Nat} {s : Engine Re} (h : Memory.wf c s.arrays = true) (r : Reg)
    (v : Word) : Memory.wf c (s.storeReg r v).arrays = true := by cases r <;> exact h

/-- The element stores after reset are legal. -/
theorem Engine.reset_wf {Re : Type} (c : Option Nat) : Memory.wf c (Engine.reset : Engine Re).arrays = true := by rfl

/-- The end of a command: completion with its result, or fault entry with its error. -/
theorem Engine.finish_cases {Re : Type} (s : Engine Re) (rd : Fin 4) (r : Except Cause (TArray Re)) :
    (∃ y, r = .ok y ∧ s.finish rd r = s.complete rd y) ∨ ∃ e, r = .error e ∧ s.finish rd r = s.raise e := by
  cases r with
  | ok y => exact .inl ⟨y, rfl, rfl⟩
  | error e => exact .inr ⟨e, rfl, rfl⟩

/-- A command on an engine of any configuration is the end of its result or error. -/
theorem Engine.command_eq {Re : Type} (p : Params Re) (i : Instr) (s : Engine Re) :
    s.command p i = s.finish i.fields.rd (commandResult p i s.axis s.len (s.readA i.fields.rs)) := by
  cases i <;> rfl

/-- Every command ends in a next state: the engine after the command, the rest as it was. -/
theorem exec_eq (i : Instr) (s : State) : exec i s = .next { s with
    toEngine := s.toEngine.finish i.fields.rd (commandResult Config.params i s.axis s.len (s.readA i.fields.rs)) } := by
  cases i <;> rfl

/-- The result of every command on a legal source is a legal array. -/
theorem commandResult_wf {Re : Type} {p : Params Re} {i : Instr} {axis len : Vector Word 8} {src : AReg Re} {y : TArray Re}
    (hs : src.wf p.maxElems = true) (h : commandResult p i axis len src = .ok y) : y.wf p.maxElems = true := by
  cases i with
  | dct f => exact dctCommand_wf (p := p) hs h
  | idct f => exact idctCommand_wf (p := p) hs h
  | dctn f => exact dctnCommand_wf (p := p) hs h
  | idctn f => exact idctnCommand_wf (p := p) hs h

/-- A command on an engine of any configuration keeps the element stores legal. -/
theorem Engine.command_keeps_wf {Re : Type} {p : Params Re} {s : Engine Re} (h : Memory.wf p.maxElems s.arrays = true)
    (i : Instr) : Memory.wf p.maxElems (s.command p i).arrays = true := by
  rw [Engine.command_eq]
  rcases s.finish_cases i.fields.rd (commandResult p i s.axis s.len (s.readA i.fields.rs)) with ⟨y, h1, h2⟩ | ⟨e, -, h2⟩
  · rw [h2]; exact Engine.complete_keeps_wf h _ (commandResult_wf (Engine.readA_wf h _) h1)
  · rw [h2]; exact h

/-- `execute(w)` ends in a next state: completion of a decoded command, or fault entry. -/
theorem execute_cases (w : Word) (s : State) :
    (∃ i y, decode w = .ok i ∧ commandResult Config.params i s.axis s.len (s.readA i.fields.rs) = .ok y ∧
        execute w s = .next { s with toEngine := s.toEngine.complete i.fields.rd y }) ∨
      ∃ e, execute w s = .next { s with toEngine := s.toEngine.raise e } := by
  unfold execute
  cases hd : decode w with
  | error l => exact .inr ⟨.eIllegal, rfl⟩
  | ok i =>
    simp only [exec_eq]
    rcases Engine.finish_cases s.toEngine i.fields.rd (commandResult Config.params i s.axis s.len (s.readA i.fields.rs)) with
      ⟨y, h1, h2⟩ | ⟨e, -, h2⟩
    · exact .inl ⟨i, y, rfl, h1, by rw [h2]⟩
    · exact .inr ⟨e, by rw [h2]⟩

/-- A `CMD` write: discarded while a fault is pending, else stored and executed (rule R24). -/
theorem issue_cases (w : Word) (s : State) :
    (s.fault = true ∧ issue w s = .next s) ∨
      (s.fault = false ∧ issue w s = execute w { s with cmd := w }) := by
  unfold issue
  cases h : s.fault <;> simp

@[simp] theorem perform_load (i : Fin 4) (v : TArray Elem) (s : State) :
    perform (.loadArray i v) s = if v.wf Config.maxElems then .next { s with toEngine := s.toEngine.writeA i (.array v) }
      else .refused .notAMove := rfl
@[simp] theorem perform_read (i : Fin 4) (s : State) :
    perform (.readArray i) s = .next (s.record (.array i (s.readA i))) := rfl
@[simp] theorem perform_cmd (w : Word) (s : State) : perform (.writeReg .cmd w) s = issue w s := rfl
theorem perform_write {r : Reg} (hr : r ≠ .cmd) (v : Word) (s : State) :
    perform (.writeReg r v) s = .next { s with toEngine := s.toEngine.storeReg r v } := by cases r <;> first | rfl | exact absurd rfl hr
@[simp] theorem perform_readReg (r : Reg) (s : State) :
    perform (.readReg r) s = .next (s.record (.word r (s.readReg r))) := rfl
@[simp] theorem perform_reset (s : State) : perform .reset s = .next s.resetEngine := rfl

/-- A host action of this machine is the same action on an engine of this machine's configuration: the step is the engine as a
function of its configuration record (rules R6, R20), and the value a read returns is appended to the record of reads. -/
theorem perform_eq_act (a : HostAction Elem) (s : State) : perform a s =
    match s.toEngine.act Config.params a with
    | some (e, v) => .next { s with toEngine := e, reads := s.reads ++ v.toList }
    | none => .refused .notAMove := by
  cases a with
  | loadArray i v =>
    rw [perform_load]
    simp only [Engine.act, params_maxElems]
    split <;> simp_all
  | readArray i => rfl
  | readReg r => rfl
  | reset => simp [Engine.act, State.resetEngine]
  | writeReg r v =>
    by_cases hr : r = .cmd
    · subst hr
      simp only [perform_cmd, Engine.act, Engine.issue, issue, execute]
      cases s.fault
      · cases hd : decode v with
        | error l => simp
        | ok i => simp [exec_eq, Engine.command_eq]
      · simp
    · rw [perform_write hr]
      cases r <;> first | exact absurd rfl hr | simp [Engine.act]

/-- A step with no host action changes nothing. -/
theorem step_idle {s : State} (h : s.pending = []) : step s = .next s := by
  simp [step, hostStep, h]

/-- A step performs the host's next action. -/
theorem step_action {s : State} {a : HostAction Elem} {rest : List (HostAction Elem)} (h : s.pending = a :: rest) :
    step s = perform a { s with pending := rest } := by
  simp [step, hostStep, h]

/-- What one action of the host can do when it answers a next state. -/
theorem perform_cases {a : HostAction Elem} {s t : State} (h : perform a s = .next t) :
    (∃ i v, a = .loadArray i v ∧ v.wf Config.maxElems = true ∧
        t = { s with toEngine := s.toEngine.writeA i (.array v) }) ∨
    (∃ i, a = .readArray i ∧ t = s.record (.array i (s.readA i))) ∨
    (∃ w, a = .writeReg .cmd w ∧ s.fault = true ∧ t = s) ∨
    (∃ w i y, a = .writeReg .cmd w ∧ s.fault = false ∧ decode w = .ok i ∧
        commandResult Config.params i s.axis s.len (s.readA i.fields.rs) = .ok y ∧
        t = { s with toEngine := { s.toEngine with cmd := w }.complete i.fields.rd y }) ∨
    (∃ w e, a = .writeReg .cmd w ∧ s.fault = false ∧
        t = { s with toEngine := { s.toEngine with cmd := w }.raise e }) ∨
    (∃ r v, a = .writeReg r v ∧ r ≠ .cmd ∧ t = { s with toEngine := s.toEngine.storeReg r v }) ∨
    (∃ r, a = .readReg r ∧ t = s.record (.word r (s.readReg r))) ∨
    (a = .reset ∧ t = s.resetEngine) := by
  cases a with
  | loadArray i v =>
    rw [perform_load] at h
    split at h
    · cases h; exact .inl ⟨i, v, rfl, ‹_›, rfl⟩
    · cases h
  | readArray i => rw [perform_read] at h; cases h; exact .inr (.inl ⟨i, rfl, rfl⟩)
  | readReg r => rw [perform_readReg] at h; cases h; exact .inr (.inr (.inr (.inr (.inr (.inr (.inl ⟨r, rfl, rfl⟩))))))
  | reset => rw [perform_reset] at h; cases h; exact .inr (.inr (.inr (.inr (.inr (.inr (.inr ⟨rfl, rfl⟩))))))
  | writeReg r v =>
    by_cases hr : r = .cmd
    · subst hr
      rw [perform_cmd] at h
      rcases issue_cases v s with ⟨hf, hi⟩ | ⟨hf, hi⟩
      · rw [hi] at h; cases h; exact .inr (.inr (.inl ⟨v, rfl, hf, rfl⟩))
      · rw [hi] at h
        rcases execute_cases v { s with cmd := v } with ⟨i, y, h1, h2, h3⟩ | ⟨e, h3⟩
        · rw [h3] at h; cases h
          exact .inr (.inr (.inr (.inl ⟨v, i, y, rfl, hf, h1, h2, rfl⟩)))
        · rw [h3] at h; cases h
          exact .inr (.inr (.inr (.inr (.inl ⟨v, e, rfl, hf, rfl⟩))))
    · rw [perform_write hr] at h; cases h
      exact .inr (.inr (.inr (.inr (.inr (.inl ⟨r, v, rfl, hr, rfl⟩)))))

/-- What a step can do when it answers a next state: nothing, or the host's next action. -/
theorem step_cases {s t : State} (h : step s = .next t) :
    (s.pending = [] ∧ t = s) ∨
      ∃ a rest, s.pending = a :: rest ∧ perform a { s with pending := rest } = .next t := by
  cases hp : s.pending with
  | nil => rw [step_idle hp] at h; cases h; exact .inl ⟨rfl, rfl⟩
  | cons a rest => rw [step_action hp] at h; exact .inr ⟨a, rest, rfl, h⟩

end Sys2Proof.Machine
end

