-- ==== Sys2Proof/Laws/PerInstr.lean ====
section
/-! SUPPORT. The statements made per instruction. `WordLayout`: the word the encoder writes carries the command's opcode in
`OPC`, zeros in the reserved bits, and every field of the command at the field's own place (rules R71, R72). -/

namespace Sys2Proof.Laws.WordLayout

/-- The fields of the command's word are the command's own. -/
def Statement (i : Instr) : Prop :=
  opcField (encode i) = i.opc ∧ reservedField (encode i) = 0#8 ∧ fieldsOf (encode i) = i.fields

theorem dct (f : Fields) : Statement (.dct f) :=
  ⟨opcField_encodeFields _ f, reservedField_encodeFields _ f, fieldsOf_encodeFields _ f⟩

theorem idct (f : Fields) : Statement (.idct f) :=
  ⟨opcField_encodeFields _ f, reservedField_encodeFields _ f, fieldsOf_encodeFields _ f⟩

theorem dctn (f : Fields) : Statement (.dctn f) :=
  ⟨opcField_encodeFields _ f, reservedField_encodeFields _ f, fieldsOf_encodeFields _ f⟩

theorem idctn (f : Fields) : Statement (.idctn f) :=
  ⟨opcField_encodeFields _ f, reservedField_encodeFields _ f, fieldsOf_encodeFields _ f⟩

end Sys2Proof.Laws.WordLayout
end

