-- ==== Sys2Proof/Tests/Slice0.lean ====
section
/-! SUPPORT. The model's own tests. Expected values are the spec's: the words of spec/30_encoding.md section 6 and
spec/95_test_vectors.md, the tables of rules R108 and R194, the vectors of spec/95_test_vectors.md sections 1 and 2. The last
part holds one or more witnesses for every statement that has hypotheses. -/

namespace Sys2Proof.Machine.Test

/-! ### Well-formedness: an ill-formed term per check, and the boundary values that pass -/

def fl (lg ag : Bool) (nax nlen : BitVec 4) : Fields :=
  { type := 2, norm := 0, lg := lg, ag := ag, nax := nax, nlen := nlen, rs := 0, rd := 1 }

theorem test_wf_L3 : (Instr.dctn (fl false false 1 0)).illegal? = some .axesWithoutAG := by decide
theorem test_wf_L4 : (Instr.idctn (fl false false 0 1)).illegal? = some .lensWithoutLG := by decide
theorem test_wf_L5_axes : (Instr.dctn (fl false true 9 0)).illegal? = some .tooManyEntries := by decide
theorem test_wf_L5_lens : (Instr.dctn (fl true false 0 9)).illegal? = some .tooManyEntries := by decide
theorem test_wf_L6 : (Instr.dct (fl false true 2 0)).illegal? = some .axisCount ∧
    (Instr.idct (fl false true 0 0)).illegal? = some .axisCount := by decide
theorem test_wf_L7 : (Instr.idct (fl true false 0 2)).illegal? = some .lenCount ∧
    (Instr.dct (fl true false 0 0)).illegal? = some .lenCount := by decide
theorem test_wf_passes : (Instr.dct (fl true true 1 1)).wf = true ∧ (Instr.idct (fl false false 0 0)).wf = true ∧
    (Instr.dctn (fl true true 8 8)).wf = true ∧ (Instr.dctn (fl false true 0 0)).wf = true ∧
    (Instr.idctn (fl true true 3 2)).wf = true := by decide

/-! ### Decoding: words written out field by field, `[rsvd][RD][RS][NLEN][NAX][AG][LG][NORM][TYPE][OPC]` (rule R71) -/

theorem test_decode_dct : decode 0b00000000_01_00_0000_0001_1_0_01_0010_0001 =
    .ok (.dct { type := 2, norm := 1, lg := false, ag := true, nax := 1, nlen := 0, rs := 0, rd := 1 }) := by decide
theorem test_decode_idct : decode 0b00000000_10_01_0001_0000_0_1_01_0010_0010 =
    .ok (.idct { type := 2, norm := 1, lg := true, ag := false, nax := 0, nlen := 1, rs := 1, rd := 2 }) := by decide
theorem test_decode_dctn : decode 0b00000000_01_00_0010_0010_1_1_00_0010_0011 =
    .ok (.dctn { type := 2, norm := 0, lg := true, ag := true, nax := 2, nlen := 2, rs := 0, rd := 1 }) := by decide
theorem test_decode_idctn : decode 0b00000000_10_01_0000_0011_1_0_00_0010_0100 =
    .ok (.idctn { type := 2, norm := 0, lg := false, ag := true, nax := 3, nlen := 0, rs := 1, rd := 2 }) := by decide

/-- The fields of a legal word in the column order of spec/95_test_vectors.md section 2.9. -/
def row (w : Word) : Option (List Nat) :=
  match decode w with
  | .ok i =>
    let f := i.fields
    some [i.opc.toNat, f.type.toNat, f.norm.toNat, f.lg.toNat, f.ag.toNat, f.nax.toNat, f.nlen.toNat, f.rs.val, f.rd.val]
  | .error _ => none

theorem test_decode_legal_words :
    row 0x00411C21 = some [1, 2, 0, 1, 1, 1, 1, 0, 1] ∧ row 0x00D00122 = some [2, 2, 1, 0, 0, 0, 0, 1, 3] ∧
    row 0x00A01821 = some [1, 2, 0, 0, 1, 1, 0, 2, 2] ∧ row 0x00403923 = some [3, 2, 1, 0, 1, 3, 0, 0, 1] ∧
    row 0x00400823 = some [3, 2, 0, 0, 1, 0, 0, 0, 1] ∧ row 0x00400014 = some [4, 1, 0, 0, 0, 0, 0, 0, 1] ∧
    row 0x00400321 = some [1, 2, 3, 0, 0, 0, 0, 0, 1] := by decide

/-- Why a word is illegal. -/
def why (w : Word) : Option Illegal :=
  match decode w with
  | .ok _ => none
  | .error e => some e

theorem test_decode_illegal_words :
    why 0x00000000 = some .opcode ∧ why 0x00400025 = some .opcode ∧ why 0x0040002F = some .opcode ∧
    why 0x01400021 = some .reservedBits ∧ why 0x80400021 = some .reservedBits ∧ why 0x00401021 = some .axesWithoutAG ∧
    why 0x00410021 = some .lensWithoutLG ∧ why 0x00409823 = some .tooManyEntries ∧ why 0x00490423 = some .tooManyEntries ∧
    why 0x00402821 = some .axisCount ∧ why 0x00420421 = some .lenCount := by decide

theorem test_encode :
    encode (.dct { type := 2, norm := 0, lg := true, ag := false, nax := 0, nlen := 1, rs := 0, rd := 1 }) = 0x00410421 ∧
    encode (.idct { type := 2, norm := 1, lg := false, ag := false, nax := 0, nlen := 0, rs := 1, rd := 2 }) = 0x00900122 ∧
    encode (.dctn { type := 2, norm := 0, lg := false, ag := true, nax := 2, nlen := 0, rs := 0, rd := 1 }) = 0x00402823 ∧
    encode (.idctn { type := 2, norm := 0, lg := false, ag := true, nax := 3, nlen := 0, rs := 1, rd := 2 }) = 0x00903824 :=
  by decide

theorem test_decodeTableWord : decodeTableWord 32 0x00400021 = some (.dct (fl false false 0 0)) ∧
    decodeTableWord 8 0x00400000 = none ∧ decodeTableWord 32 0x01400021 = none := by decide

/-- The first step after reset runs the placed word: its source is `Empty`, so it takes `E_EMPTY` (rule R226). -/
theorem test_withFetchWord : step (State.reset.withFetchWord 32 0x00400021) =
    .next { State.reset with cmd := 0x00400021, fault := true, ecode := 6 } := by rfl

/-! ### Assembler (spec/30_encoding.md section 6) -/

theorem test_assemble_dct : (Stmt.dct 1 0 none none (some (-1)) false).expand =
    some [.writeReg (.axis 0) 0xFFFFFFFF, .writeReg .cmd 0x00401821] := by decide
theorem test_assemble_dctn : (Stmt.dctn 1 0 none (some [3, 1]) (some [0, 1]) false).expand =
    some [.writeReg (.axis 0) 0, .writeReg (.axis 1) 1, .writeReg (.len 0) 3, .writeReg (.len 1) 1,
      .writeReg .cmd 0x00422C23] := by decide
theorem test_assemble_host : (Stmt.cmd 0x00400221).expand = some [.writeReg .cmd 0x00400221] ∧
    Stmt.fclr.expand = some [.writeReg .fclr 0] ∧ Stmt.rdst.expand = some [.readReg .status] ∧
    Stmt.rdseq.expand = some [.readReg .seq] ∧ Stmt.reset.expand = some [.reset] ∧
    (Stmt.read 2).expand = some [.readArray 2] := by decide

/-! ### The units on whole numbers -/

theorem test_ilv_table : List.ofFn (ilv 5 Fin.val) = [0, 2, 4, 3, 1] ∧ List.ofFn (ilv 8 Fin.val) = [0, 2, 4, 6, 7, 5, 3, 1] ∧
    List.ofFn (ilv 1 Fin.val) = [0] := by decide
theorem test_dilv_table : List.ofFn (dilv 5 Fin.val) = [0, 4, 1, 3, 2] ∧
    List.ofFn (dilv 8 Fin.val) = [0, 7, 1, 6, 2, 5, 3, 4] ∧ List.ofFn (dilv 1 Fin.val) = [0] := by decide
theorem test_ilv_arrays :
    ilvAlong 0 1 ⟨[2, 3], [1, 2, 3, 4, 5, 6]⟩ = ⟨[2, 3], [1, 3, 2, 4, 6, 5]⟩ ∧
    ilvAlong 0 0 ⟨[3, 2], [1, 2, 3, 4, 5, 6]⟩ = ⟨[3, 2], [1, 2, 5, 6, 3, 4]⟩ := by decide

/-! ### The kernels in decimals of ten places

`dec` is a numerics record over decimals with ten places after the point, held as integers. Its cosines and square roots are
the decimals the spec prints (spec/95_test_vectors.md sections 2.2 and 2.3, rule R194), and its collaborator is the sums of
rules R203 to R205. Results are compared with the spec's decimals within 1e-5, the tolerance of rule R142. -/

def one : Int := 10 ^ 10

/-- `cos(pi·m/(2N))` for `0 ≤ m ≤ N`, for `N` up to 4. -/
def quarter (N m : Nat) : Int :=
  match N, m with
  | _, 0 => one
  | 2, 1 => 7071067812
  | 3, 1 => 8660254038
  | 3, 2 => 5000000000
  | 4, 1 => 9238795325
  | 4, 2 => 7071067812
  | 4, 3 => 3826834324
  | _, _ => 0

/-- `cos(pi·m/(2N))` for any integer `m`, from the quarter wave. -/
def cosine (N : Nat) (m : Int) : Int :=
  let j := (m % (4 * N : Int)).toNat
  if j ≤ N then quarter N j
  else if j ≤ 2 * N then -quarter N (2 * N - j)
  else if j ≤ 3 * N then -quarter N (j - 2 * N)
  else quarter N (4 * N - j)

/-- The square roots of rule R194, at ten places. -/
def root (v : Int) : Int :=
  if v = 4 * one then 2 * one
  else if v = 2 * one then 14142135624
  else if v = 8 * one then 28284271247
  else if v = 12 * one then 34641016151
  else if v = 6 * one then 24494897428
  else if v = 16 * one then 4 * one
  else 0

def decBase : Numerics Int where
  zero := 0
  ofNat n := n * one
  add := fun x y => x + y
  sub := fun x y => x - y
  mul := fun x y => x * y / one
  div := fun x y => x * one / y
  neg := fun x => -x
  sqrt := root
  twiddle N k := { re := cosine N k, im := -cosine N (k - N) }
  fft _ z := z
  ifft _ z := z
  fft2 _ _ z := z

def dec : Numerics Int :=
  { decBase with
    fft := dft decBase
    ifft := idft decBase
    fft2 := fun N1 N2 z k1 k2 => dft decBase N1 (fun n1 => dft decBase N2 (z n1) k2) k1 }

/-- A configuration with `MAX_ELEMS = m + 1`. -/
def cfg {Re : Type} (num : Numerics Re) (m : Nat) : Params Re where
  maxElems := some (m + 1)
  maxElems_pos n h := by cases h; omega
  num := num
  tol := Config.tol

/-- The result of a command word on an array of whole numbers, under `MAX_ELEMS = 10` (spec/95_test_vectors.md). -/
def run (w : Word) (axis len : Vector Word 8) (x : TArray Int) : Except Cause (TArray Int) :=
  match decode w with
  | .ok i => commandResult (cfg dec 9) i axis len (.array x)
  | .error _ => .error .eIllegal

/-- The result has the shape and, within 1e-5, the elements given as decimals of ten places. -/
def near (r : Except Cause (TArray Int)) (sh : List Nat) (vals : List Int) : Bool :=
  match r with
  | .ok y => y.shape = sh && y.data.length = vals.length && (y.data.zip vals).all fun p => (p.1 - p.2).natAbs ≤ 10 ^ 5
  | .error _ => false

def z8 : Vector Word 8 := Vector.replicate 8 0

/-- Rule R142, the source's known small case, and the same with `norm`. -/
theorem test_dct_line :
    near (run 0x00400021 z8 z8 ⟨[4], [1 * one, 2 * one, 3 * one, 4 * one]⟩) [4]
      [200000000000, -63086440598, 0, -4483415292] ∧
    near (run 0x00400121 z8 z8 ⟨[4], [1 * one, 2 * one, 3 * one, 4 * one]⟩) [4]
      [50000000000, -22304424974, 0, -1585126678] := by decide +kernel
/-- `dct A1, A0, n=3, axis=0` and `dct A1, A0, n=2` on `[[1,2,3],[4,5,6]]`. -/
theorem test_dct_array :
    near (run 0x00411C21 z8 (z8.set 0 3) ⟨[2, 3], [1 * one, 2 * one, 3 * one, 4 * one, 5 * one, 6 * one]⟩) [3, 3]
      [100000000000, 140000000000, 180000000000, 17320508076, 34641016151, 51961524227, -70000000000, -80000000000,
        -90000000000] ∧
    near (run 0x00410421 z8 (z8.set 0 2) ⟨[2, 3], [1 * one, 2 * one, 3 * one, 4 * one, 5 * one, 6 * one]⟩) [2, 2]
      [60000000000, -14142135624, 180000000000, -14142135624] := by decide +kernel

/-- `idct` without and with `norm` on a spectrum that is not the output of a `dct`. -/
theorem test_idct_line :
    near (run 0x00900022 z8 z8 ⟨[4], [1 * one, 2 * one, 3 * one, 4 * one]⟩) [4]
      [14999532845, -11378679022, 3272077304, -1892931127] ∧
    near (run 0x00900122 z8 z8 ⟨[4], [1 * one, 2 * one, 3 * one, 4 * one]⟩) [4]
      [43889551652, -30719298296, 10719298296, -3889551652] := by decide +kernel
/-- `idct A2, A1, n=2` and `idct A2, A1, axis=0`. -/
theorem test_idct_array :
    near (run 0x00910422 z8 (z8.set 0 2) ⟨[4], [200000000000, -63086440598, 0, -4483415292]⟩) [2]
      [27695575026, 72304424974] ∧
    near (run 0x00901822 z8 z8 ⟨[2, 3], [100000000000, 140000000000, 180000000000, -42426406871, -42426406871, -42426406871]⟩)
      [2, 3] [1 * one, 2 * one, 3 * one, 4 * one, 5 * one, 6 * one] := by decide +kernel

/-- The 2-D fast path with `norm` absent and with the axes in the other order and `norm` given. -/
theorem test_dctn_plane :
    near (run 0x00400023 z8 z8 ⟨[2, 3], [1 * one, 2 * one, 3 * one, 4 * one, 5 * one, 6 * one]⟩) [2, 3]
      [840000000000, -138564064606, 0, -254558441227, 0, 0] ∧
    near (run 0x00402923 (z8.set 0 1) z8 ⟨[2, 3], [1 * one, 2 * one, 3 * one, 4 * one, 5 * one, 6 * one]⟩) [2, 3]
      [85732140997, -20000000000, 0, -36742346142, 0, 0] := by decide +kernel
/-- `s` goes with the listed axes, and three axes run as a pair and a single one. -/
theorem test_dctn_lists :
    near (run 0x00422C23 (z8.set 0 1) ((z8.set 0 2).set 1 3)
        ⟨[2, 3], [1 * one, 2 * one, 3 * one, 4 * one, 5 * one, 6 * one]⟩) [3, 2]
      [480000000000, -56568542495, 103923048454, -24494897428, -300000000000, 14142135624] ∧
    near (run 0x00403823 (((z8.set 0 2).set 1 0).set 2 1) z8
        ⟨[2, 2, 2], [1 * one, 2 * one, 3 * one, 4 * one, 5 * one, 6 * one, 7 * one, 8 * one]⟩) [2, 2, 2]
      [2880000000000, -226274169980, -452548339959, 0, -905096679919, 0, 0, 0] := by decide +kernel

/-- `idctn` over both axes, and over one axis with `norm`. -/
theorem test_idctn_plane :
    near (run 0x00902824 (z8.set 1 1) z8 ⟨[2, 2], [400000000000, -56568542495, -113137084990, 0]⟩) [2, 2]
      [1 * one, 2 * one, 3 * one, 4 * one] ∧
    near (run 0x00901924 z8 z8 ⟨[2, 2], [50000000000, -10000000000, -20000000000, 0]⟩) [2, 2]
      [21213203436, -7071067812, 49497474683, -7071067812] := by decide +kernel
/-- `idctn A2, A1, s=(3,3), axes=(0,1)` and `idctn A2, A1, s=(2,2)`. -/
theorem test_idctn_lists :
    near (run 0x00922C24 (z8.set 1 1) ((z8.set 0 3).set 1 3)
        ⟨[2, 3], [840000000000, -138564064606, 0, -254558441227, 0, 0]⟩) [3, 3]
      [4419217953, 11085884619, 17752551286, 16666666667, 23333333333, 30000000000, 28914115381, 35580782047, 42247448714] ∧
    near (run 0x00920424 z8 ((z8.set 0 2).set 1 2) ⟨[2, 3], [840000000000, -138564064606, 0, -254558441227, 0, 0]⟩) [2, 2]
      [17752551286, 42247448714, 62752551286, 87247448714] := by decide +kernel

/-! ### Errors and host accesses (spec/95_test_vectors.md sections 2.10 and 2.11) -/

/-- The array `[[1,2,3],[4,5,6]]` of section 2.10; no check looks at its elements. -/
def a0 : TArray Int := ⟨[2, 3], [1, 2, 3, 4, 5, 6]⟩

/-- The error of a command word on a source of any content, under `MAX_ELEMS = 8`. -/
def err (w : Word) (axis len : Vector Word 8) (src : AReg Int) : Option Cause :=
  match decode w with
  | .error _ => some .eIllegal
  | .ok i =>
    match commandResult (cfg decBase 7) i axis len src with
    | .error e => some e
    | .ok _ => none

theorem test_errors :
    err 0x00400031 z8 z8 (.array a0) = some .eType ∧ err 0x00400221 z8 z8 (.array a0) = some .eNorm ∧
    err 0x00600021 z8 z8 .empty = some .eEmpty ∧ err 0x00401821 (z8.set 0 2) z8 (.array a0) = some .eAxis ∧
    err 0x00401821 (z8.set 0 0xFFFFFFFD) z8 (.array a0) = some .eAxis ∧
    err 0x00401821 (z8.set 0 0xFFFFFFFE) z8 (.array a0) = none ∧
    err 0x00402823 ((z8.set 0 1).set 1 0xFFFFFFFF) z8 (.array a0) = some .eAxis ∧
    err 0x00410422 z8 z8 (.array a0) = some .eShape ∧ err 0x00400823 z8 z8 (.array a0) = some .eShape ∧
    err 0x00403824 ((z8.set 1 1).set 2 1) z8 (.array a0) = some .eShape ∧
    err 0x00410423 z8 (z8.set 0 3) (.array a0) = some .eShape := by decide
theorem test_capacity :
    err 0x00410421 z8 (z8.set 0 4) (.array a0) = none ∧ err 0x00410421 z8 (z8.set 0 5) (.array a0) = some .eCap ∧
    err 0x00420423 z8 ((z8.set 0 3).set 1 3) (.array a0) = some .eCap ∧
    err 0x00410421 z8 (z8.set 0 0xFFFFFFFF) (.array a0) = some .eCap ∧
    err 0x00420423 z8 (z8.set 1 100) (.array a0) = some .eShape := by decide
theorem test_priority :
    err 0x00400335 z8 z8 (.array a0) = some .eIllegal ∧ err 0x00400231 z8 z8 (.array a0) = some .eType ∧
    err 0x00600031 z8 z8 .empty = some .eType ∧ err 0x00600221 z8 z8 .empty = some .eNorm ∧
    err 0x00601821 (z8.set 0 7) z8 .empty = some .eEmpty ∧
    err 0x00403823 ((z8.set 1 1).set 2 5) z8 (.array a0) = some .eShape ∧
    err 0x00412C23 (z8.set 1 5) (z8.set 0 3) (.array a0) = some .eShape ∧
    err 0x00422C23 (z8.set 1 5) (z8.set 1 3) (.array a0) = some .eAxis ∧
    err 0x00422C23 z8 (z8.set 1 3) (.array a0) = some .eAxis := by decide

/-- `STATUS = 0x00000012`, `CMD = 0x00400031`, `SEQ = 5`. -/
def faulted : State := { State.reset with fault := true, ecode := 1, cmd := 0x00400031, seq := 5 }

theorem test_status_word : faulted.statusWord = 0x00000012 ∧ ({ State.reset with done := true } : State).statusWord = 0x00000001 := by
  decide
theorem test_discard : perform (.writeReg .cmd 0x00400021) faulted = .next faulted := by rfl
theorem test_fclr : perform (.writeReg .fclr 0xDEADBEEF) faulted = .next { faulted with fault := false, ecode := 0 } := by rfl
theorem test_axis_write_reads_back :
    ∃ t, perform (.writeReg (.axis 3) 0xFFFFFFFE) faulted = .next t ∧ t.readReg (.axis 3) = 0xFFFFFFFE ∧
      t.statusWord = 0x00000012 := ⟨_, rfl, by decide, by decide⟩
theorem test_load_while_faulted :
    ∃ t, perform (.loadArray 1 ⟨[1], [⟨7⟩]⟩) faulted = .next t ∧ t.readA 1 = .array ⟨[1], [⟨7⟩]⟩ ∧
      t.statusWord = 0x00000012 := by
  have h : (⟨[1], [⟨7⟩]⟩ : TArray Elem).wf Config.maxElems = true := by simp [TArray.wf]
  exact ⟨_, by simp only [perform, h, if_true]; rfl, by decide, by decide⟩

/-! ### Witnesses: states and operands that meet the hypotheses of each statement, clause by clause -/

def v1 : TArray Elem := ⟨[1], [⟨3⟩]⟩
def v11 : TArray Elem := ⟨[1, 1], [⟨5⟩]⟩
def m23 : TArray Elem := ⟨[2, 3], [⟨1⟩, ⟨2⟩, ⟨3⟩, ⟨4⟩, ⟨5⟩, ⟨6⟩]⟩
def m23r : TArray ℝ := ⟨[2, 3], [1, 2, 3, 4, 5, 6]⟩
def toy : Params Elem := cfg default 7

/-- Two loaded registers and a completed command behind them. -/
def live : State :=
  { State.reset with arrays := #v[.array v1, .array v11, .empty, .empty], done := true, seq := 0xFFFFFFFF }

/-- `live` with one action to come. -/
def next (a : HostAction Elem) : State := { live with pending := [a] }

def fN (norm : BitVec 2) (lg ag : Bool) (nax nlen : BitVec 4) (rs rd : Fin 4) : Fields :=
  { type := 2, norm := norm, lg := lg, ag := ag, nax := nax, nlen := nlen, rs := rs, rd := rd }

theorem witness_DecodeOfEncode : (Instr.dct (fN 3 true true 1 1 3 3)).wf = true ∧
    (Instr.dctn (fN 0 true true 8 8 0 0)).wf = true ∧ (Instr.idctn (fN 1 false true 0 0 2 1)).wf = true ∧
    (Instr.idct (fN 2 false false 0 0 0 3)).wf = true := by decide
theorem witness_EncodeOfDecode : decode 0x00401821 = .ok (.dct (fN 0 false true 1 0 0 1)) := by decide
theorem witness_StatementsAssemble :
    ((∀ a ∈ [-2 ^ 31, 2 ^ 31 - 1, 0, 0, 0, 0, 0, (7 : Int)], -2 ^ 31 ≤ a ∧ a < 2 ^ 31) ∧
      (Stmt.dctn 1 0 none none (some [-2 ^ 31, 2 ^ 31 - 1, 0, 0, 0, 0, 0, 7]) true).expand.isSome = true) ∧
    (¬(2 ^ 31 : Int) < 2 ^ 31 ∧ (Stmt.dctn 1 0 none none (some [2 ^ 31]) false).expand = none) ∧
    (Stmt.idctn 1 0 none none (some [0, 0, 0, 0, 0, 0, 0, 0, 0]) false).expand = none ∧
    (Stmt.dctn 1 0 none (some []) none false).expand = none ∧ (Stmt.dctn 1 0 none none (some []) false).expand =
      some [.writeReg .cmd 0x00400823] ∧
    (Stmt.idct 2 1 none (some 0) (some (-1)) true).expand =
      some [.writeReg (.axis 0) 0xFFFFFFFF, .writeReg (.len 0) 0, .writeReg .cmd 0x00911D22] := by decide
theorem witness_StepRunsCommand : (next (.writeReg .cmd 0x00400021)).pending = .writeReg .cmd 0x00400021 :: [] ∧
    (next (.writeReg .cmd 0x00400021)).fault = false ∧ decode 0x00400021 = .ok (.dct (fl false false 0 0)) := by decide
theorem witness_StepIllegalWord : (next (.writeReg .cmd 0)).pending = .writeReg .cmd 0 :: [] ∧
    (next (.writeReg .cmd 0)).fault = false ∧ decode 0 = .error .opcode := by decide
theorem witness_CmdWriteDiscarded :
    ({ faulted with pending := [.writeReg .cmd 0x00400021] } : State).pending = .writeReg .cmd 0x00400021 :: [] ∧
      ({ faulted with pending := [.writeReg .cmd 0x00400021] } : State).fault = true := by decide
theorem witness_FclrAcknowledges : live.flagsOk = true ∧ live.fault = false := by decide
theorem witness_RegisterWrites : (1 : Fin 8) ≠ 0 ∧ (7 : Fin 8) ≠ 0 := by decide
theorem witness_LoadArrayWrites : v1.wf Config.maxElems = true ∧ (1 : Fin 4) ≠ 0 ∧
    (⟨[], [⟨0⟩]⟩ : TArray Elem).wf Config.maxElems = false ∧ (⟨[0], []⟩ : TArray Elem).wf Config.maxElems = false :=
  ⟨by simp [TArray.wf, v1], by decide, by rfl, by rfl⟩
theorem witness_RegisterMap : Reg.ofOffset? 0x0C = some .seq ∧ Reg.ofOffset? 0x10 = some (.axis 0) ∧
    Reg.ofOffset? 0x2C = some (.axis 7) ∧ Reg.ofOffset? 0x30 = some (.len 0) ∧ Reg.ofOffset? 0x4C = some (.len 7) ∧
    Reg.ofOffset? 0x50 = none ∧ Reg.ofOffset? 0x0E = none ∧ Reg.ofOffset? 0x12 = none := by decide

theorem witness_DctCompletes : let f := fN 1 true true 1 1 0 0
    let s : State := { live with axis := live.axis.set 0 0xFFFFFFFF, len := live.len.set 0 1 }
    (Instr.dct f).wf = true ∧ f.type = 2#4 ∧ NormGiven f .ortho ∧ s.arrays[f.rs] = .array v1 ∧
      canon (if f.ag then s.axis[0].toInt else -1) v1.shape.length = some 0 ∧
      1 = (if f.lg then s.len[0].toNat else v1.shape.getD 0 0) ∧ (f.lg = true → (1 : Nat) ≠ 0) ∧
      fits Config.maxElems (shapeSize (v1.shape.set 0 1)) = true :=
  ⟨by decide, by decide, .inr ⟨rfl, rfl⟩, by decide, by decide, by decide, by decide, fits_one⟩
theorem witness_IdctCompletes : let f := fN 0 false false 0 0 1 3
    (Instr.idct f).wf = true ∧ f.type = 2#4 ∧ NormGiven f .none ∧ live.arrays[f.rs] = .array v11 ∧
      canon (if f.ag then live.axis[0].toInt else -1) v11.shape.length = some 1 ∧
      1 = (if f.lg then live.len[0].toNat else v11.shape.getD 1 0) ∧ (f.lg = true → (1 : Nat) ≠ 0) ∧
      fits Config.maxElems (shapeSize (v11.shape.set 1 1)) = true :=
  ⟨by decide, by decide, .inl ⟨rfl, rfl⟩, by decide, by decide, by decide, by decide, fits_one⟩

/-- The entries of two lists given in the registers, spelled out. -/
theorem lists_given : let f := fN 1 true true 2 2 1 2
    AxesGiven f (z8.set 0 0xFFFFFFFF) 2 [-1, 0] ∧ LensGiven f ((z8.set 0 3).set 1 4) (some [3, 4]) :=
  ⟨⟨fun _ => ⟨by decide, by decide⟩, nofun⟩, ⟨nofun, fun _ => ⟨[3, 4], rfl, by decide, by decide⟩⟩⟩

/-- The lists when none is given. -/
theorem lists_absent : let f := fN 0 false false 0 0 1 1
    AxesGiven f z8 2 [0, 1] ∧ LensGiven f z8 none :=
  ⟨⟨nofun, fun _ => ⟨by decide, by decide⟩⟩, ⟨fun _ => rfl, nofun⟩⟩
theorem witness_DctnCompletes : let f := fN 1 true true 2 2 1 2
    let s : State := { live with axis := live.axis.set 0 0xFFFFFFFF, len := (live.len.set 0 1).set 1 1 }
    (Instr.dctn f).wf = true ∧ f.type = 2#4 ∧ NormGiven f .ortho ∧ s.arrays[f.rs] = .array v11 ∧
      AxesGiven f s.axis v11.shape.length [-1, 0] ∧ LensGiven f s.len (some [1, 1]) ∧
      (f.ag = true → 1 ≤ f.nax.toNat ∧ f.nax.toNat ≤ v11.shape.length) ∧
      (f.lg = true → f.nlen.toNat = ([-1, 0] : List Int).length) ∧
      (∀ a ∈ ([-1, 0] : List Int), -(v11.shape.length : Int) ≤ a ∧ a < v11.shape.length) ∧
      [1, 0] = ([-1, 0] : List Int).map (axisOf v11.shape.length) ∧ [1, 0].Nodup ∧ 0 ∉ (some [1, 1]).getD [] ∧
      fits Config.maxElems (shapeSize (adaptN Config.num v11 [1, 0] [1, 1]).shape) = true :=
  ⟨by decide, by decide, .inr ⟨rfl, rfl⟩, by decide,
    ⟨fun _ => ⟨by decide, by decide⟩, nofun⟩, ⟨nofun, fun _ => ⟨[1, 1], rfl, by decide, by decide⟩⟩,
    by decide, by decide, by decide, by decide, by decide, by decide, fits_one⟩
theorem witness_IdctnCompletes : let f := fN 0 false false 0 0 1 1
    (Instr.idctn f).wf = true ∧ f.type = 2#4 ∧ NormGiven f .none ∧ live.arrays[f.rs] = .array v11 ∧
      AxesGiven f live.axis v11.shape.length [0, 1] ∧ LensGiven f live.len none ∧
      (f.ag = true → 1 ≤ f.nax.toNat ∧ f.nax.toNat ≤ v11.shape.length) ∧
      (f.lg = true → f.nlen.toNat = ([0, 1] : List Int).length) ∧
      (∀ a ∈ ([0, 1] : List Int), -(v11.shape.length : Int) ≤ a ∧ a < v11.shape.length) ∧
      [0, 1] = ([0, 1] : List Int).map (axisOf v11.shape.length) ∧ [0, 1].Nodup ∧ 0 ∉ (none : Option (List Nat)).getD [] ∧
      fits Config.maxElems (shapeSize v11.shape) = true :=
  ⟨by decide, by decide, .inl ⟨rfl, rfl⟩, by decide, lists_absent.1, lists_absent.2, by decide, by decide, by decide,
    by decide, by decide, by decide, fits_one⟩
theorem witness_WordErrorsInOrder : (Instr.dct (fl false false 1 0)).wf = false ∧
    (Instr.idctn { fl false false 0 0 with type := 15 }).wf = true ∧ (15#4 : BitVec 4) ≠ 2#4 ∧
    (Instr.dctn (fN 2 false false 0 0 0 1)).wf = true ∧ (Instr.idct (fN 3 false false 0 0 0 1)).wf = true ∧
    (Instr.idct (fN 1 false false 0 0 2 1)).wf = true ∧ live.readA 2 = .empty := by decide
/-- The axis one past each end, the axis at each end, the length 0, and a size one above and equal to the capacity. -/
theorem witness_AxisErrorsInOrder : (Instr.dct (fN 0 true true 1 1 0 1)).wf = true ∧ 1 ≤ m23.shape.length ∧
    ((z8.set 0 0xFFFFFFFD)[0].toInt < -2 ∧ 2 ≤ (z8.set 0 2)[0].toInt) ∧
    (-2 ≤ (z8.set 0 0xFFFFFFFE)[0].toInt ∧ (z8.set 0 1)[0].toInt < 2 ∧ z8[0] = 0#32) ∧
    ((z8.set 0 5)[0] ≠ 0#32 ∧ fits toy.maxElems (shapeSize (m23.shape.set 1 5)) = false) ∧
    ((z8.set 0 4)[0] ≠ 0#32 ∧ fits toy.maxElems (shapeSize (m23.shape.set 1 4)) = true) := by decide
/-- A count of 0, above the rank and off the axis count; an axis one past each end and at each end; a repeated axis; a length 0;
a size above and at the capacity. -/
theorem witness_ListErrorsInOrder : let f := fN 1 true true 2 2 1 2
    (Instr.dctn f).wf = true ∧ ¬(1 ≤ (0#4).toNat) ∧ ¬((3#4).toNat ≤ m23.shape.length) ∧ f.nlen.toNat = f.nax.toNat ∧
    (AxesGiven f (z8.set 0 0xFFFFFFFF) 2 [-1, 0] ∧ LensGiven f ((z8.set 0 3).set 1 4) (some [3, 4])) ∧
    AxesGiven f (z8.set 0 2) 2 [2, 0] ∧ ¬(2 : Int) < 2 ∧ ¬-2 ≤ (-3 : Int) ∧
    (∀ a ∈ ([-2, 1] : List Int), -2 ≤ a ∧ a < 2) ∧ ([-2, 1] : List Int).map (axisOf 2) = [0, 1] ∧ [0, 1].Nodup ∧
    ¬(([-1, 1] : List Int).map (axisOf 2)).Nodup ∧ LensGiven f (z8.set 0 3) (some [3, 0]) ∧ 0 ∈ (some [3, 0]).getD [] ∧
    0 ∉ (some [3, 4]).getD [] ∧ fits toy.maxElems (shapeSize (adaptN toy.num m23 [0, 1] [3, 4]).shape) = false ∧
    fits toy.maxElems (shapeSize (adaptN toy.num m23 [0, 1] [2, 4]).shape) = true :=
  ⟨by decide, by decide, by decide, by decide, lists_given, ⟨fun _ => ⟨by decide, by decide⟩, nofun⟩,
    by decide, by decide, by decide, by decide, by decide, by decide,
    ⟨nofun, fun _ => ⟨[3, 0], rfl, by decide, by decide⟩⟩, by decide, by decide, by decide, by decide⟩
theorem witness_FaultEntry : let i := Instr.idct (fN 0 false false 0 0 3 0)
    commandResult Config.params i live.axis live.len (live.readA i.fields.rs) = .error .eEmpty := by rfl
theorem witness_CommandFrame : (∃ t, exec (.dct (fN 0 false false 0 0 2 0)) live = .next t ∧ t.done = false) ∧
    (∃ t, exec (.dct (fN 0 false false 0 0 0 1)) live = .next t) ∧ (0 : Fin 4) ≠ 1 :=
  ⟨⟨_, rfl, rfl⟩, ⟨_, rfl⟩, by decide⟩

/-- A result on `live` for each of the four commands. -/
theorem witness_ResultIgnoresDestination :
    (∃ y, commandResult Config.params (.dct (fN 0 false false 0 0 0 1)) live.axis live.len (live.readA 0) = .ok y) ∧
    (∃ y, commandResult Config.params (.idct (fN 1 false false 0 0 0 1)) live.axis live.len (live.readA 0) = .ok y) ∧
    (∃ y, commandResult Config.params (.dctn (fN 1 false false 0 0 1 1)) live.axis live.len (live.readA 1) = .ok y) ∧
    (∃ y, commandResult Config.params (.idctn (fN 0 false false 0 0 1 1)) live.axis live.len (live.readA 1) = .ok y) := by
  have h1 : check1 Config.params.maxElems (fN 0 false false 0 0 0 1) live.axis live.len [1] = .ok (0, 1) := by
    have := fits_one; simp_all [check1, canon, axisRaw1, fN, targetLen]
  have h2 : check1 Config.params.maxElems (fN 1 false false 0 0 0 1) live.axis live.len [1] = .ok (0, 1) := by
    have := fits_one; simp_all [check1, canon, axisRaw1, fN, targetLen]
  have h3 : checkN Config.params.maxElems (fN 1 false false 0 0 1 1) live.axis live.len [1, 1] = .ok ([0, 1], none) := by
    have := fits_one
    simp_all [checkN, canon, canonAll, axesRaw, fN, lensOf, adaptedShape, axisCountOf, List.range_succ]
  have h4 : checkN Config.params.maxElems (fN 0 false false 0 0 1 1) live.axis live.len [1, 1] = .ok ([0, 1], none) := by
    have := fits_one
    simp_all [checkN, canon, canonAll, axesRaw, fN, lensOf, adaptedShape, axisCountOf, List.range_succ]
  refine ⟨⟨fwd1 Config.num .none 0 (adapt Config.num v1 0 1), ?_⟩,
    ⟨idct1Along Config.num .ortho 0 (adapt Config.num v1 0 1), ?_⟩, ⟨fwd Config.num .ortho [0, 1] v11, ?_⟩,
    ⟨inv Config.num .none [0, 1] v11, ?_⟩⟩
  · change (match check1 Config.params.maxElems (fN 0 false false 0 0 0 1) live.axis live.len [1] with
      | .error e => Except.error e
      | .ok (a, n) => Except.ok (fwd1 Config.num .none a (adapt Config.num v1 a n))) = _
    rw [h1]
  · change (match check1 Config.params.maxElems (fN 1 false false 0 0 0 1) live.axis live.len [1] with
      | .error e => Except.error e
      | .ok (a, n) => Except.ok (idct1Along Config.num .ortho a (adapt Config.num v1 a n))) = _
    rw [h2]
  · change (match checkN Config.params.maxElems (fN 1 false false 0 0 1 1) live.axis live.len [1, 1] with
      | .error e => Except.error e
      | .ok (axes, lens) => Except.ok (fwd Config.num .ortho axes (adaptAll Config.num v11 axes lens))) = _
    rw [h3]; rfl
  · change (match checkN Config.params.maxElems (fN 0 false false 0 0 1 1) live.axis live.len [1, 1] with
      | .error e => Except.error e
      | .ok (axes, lens) => Except.ok (inv Config.num .none axes (adaptAll Config.num v11 axes lens))) = _
    rw [h4]; rfl

theorem witness_ErrorsIgnoreElements : toy.maxElems = (cfg decBase 7).maxElems ∧ m23.shape = a0.shape := by
  decide
theorem witness_StaleEntriesNotRead : (Instr.dctn (fN 0 true true 1 1 0 1)).wf = true ∧ z8 ≠ z8.set 1 9 ∧
    (∀ j : Fin 8, j.val < (1#4).toNat → z8[j] = (z8.set 1 9)[j]) ∧ (Instr.idct (fN 0 false false 0 0 0 1)).wf = true := by
  decide
theorem witness_OneAxisDelegates : Memory.wf Config.maxElems live.arrays = true ∧ (fN 0 true true 1 1 0 1).nlen = 1#4 ∧
    (fN 0 false true 1 0 0 1).nlen = 0#4 :=
  ⟨by simp [Memory.wf, live, AReg.wf, TArray.wf, v1, v11, MAX_RANK], by decide, by decide⟩
theorem witness_CanonClauses : 1 ≤ m23.shape.length ∧ m23.shape.length ≤ 8 ∧ (fN 0 false true 1 0 0 1).ag = true := by decide
theorem witness_PadThenTransform : let f := fN 0 true false 0 1 0 1
    f.lg = true ∧ canon (axisRaw1 f z8) m23.shape.length = some 1 ∧
      ∃ y, commandResult toy (.dct f) z8 (z8.set 0 4) (.array m23) = .ok y := ⟨by decide, by decide, _, rfl⟩

theorem live_sound : live.Inv := ⟨by simp [Memory.wf, live, AReg.wf, TArray.wf, v1, v11, MAX_RANK], by decide⟩

/-- Sound states whose step completes a command, faults, acknowledges, loads and resets. -/
theorem witness_StepKeepsSound : (next (.writeReg .cmd 0x00400021)).Inv ∧
    (∃ t, step (next (.writeReg .cmd 0x00400021)) = .next t) ∧ (∃ t, step (next (.writeReg .cmd 0)) = .next t) ∧
    (∃ t, step (next .reset) = .next t) := ⟨live_sound, ⟨_, rfl⟩, ⟨_, rfl⟩, ⟨_, rfl⟩⟩

/-- `SEQ` = 0xFFFFFFFF changes by a command that completes, and by reset. -/
theorem witness_SeqCountsCompletions :
    (∃ t, step (next (.writeReg .cmd 0x00800021)) = .next t ∧ t.seq ≠ live.seq) ∧
      ∃ t, step (next .reset) = .next t ∧ t.seq ≠ live.seq := by
  refine ⟨?_, ⟨_, rfl, by decide⟩⟩
  obtain ⟨⟨y, hy⟩, -⟩ := witness_ResultIgnoresDestination
  refine ⟨{ live with toEngine := { live.toEngine with cmd := 0x00800021 }.complete 2 y }, ?_, ?_⟩
  case refine_2 => change (0xFFFFFFFF#32 + 1#32 : Word) ≠ 0xFFFFFFFF#32; decide
  change Host.Outcome.next (State.mk (Engine.finish { live.toEngine with cmd := 0x00800021 } 2
    (commandResult Config.params (.dct (fN 0 false false 0 0 0 1)) live.axis live.len (live.readA 0))) [] []) = _
  rw [hy]; rfl
theorem witness_DescriptorsOnlyByHost :
    (∃ t, step (next (.writeReg (.axis 7) 1)) = .next t ∧ t.axis ≠ live.axis) ∧
    (∃ t, step (next (.writeReg (.len 0) 1)) = .next t ∧ t.len ≠ live.len) ∧
    (∃ t, step (next (.writeReg .cmd 0x31)) = .next t ∧ t.cmd ≠ live.cmd) :=
  ⟨⟨_, rfl, by decide⟩, ⟨_, rfl, by decide⟩, ⟨_, rfl, by decide⟩⟩
theorem witness_ArraysOnlyByLoadAndCommand :
    (∃ t, step (next .reset) = .next t ∧ t.readA 0 ≠ live.readA 0) ∧
      ∃ t, step (next (.loadArray 3 v1)) = .next t ∧ t.readA 3 ≠ live.readA 3 := by
  refine ⟨⟨_, rfl, by decide⟩, ⟨{ live with toEngine := live.toEngine.writeA 3 (.array v1) }, ?_, by decide⟩⟩
  have h : v1.wf Config.maxElems = true := by simp [TArray.wf, v1]
  change (if v1.wf Config.maxElems then _ else _) = _
  rw [if_pos h]; rfl
theorem witness_FaultIsSticky :
    (∃ t, step { faulted with pending := [.writeReg .fclr 1] } = .next t ∧ t.fault = false) ∧
    (∃ t, step { faulted with pending := [.writeReg .cmd 1] } = .next t ∧ t.fault = true) ∧
    (∃ t, step (next (.writeReg .cmd 0)) = .next t ∧ t.fault = true ∧ live.fault = false) :=
  ⟨⟨_, rfl, rfl⟩, ⟨_, rfl, rfl⟩, ⟨_, rfl, rfl, rfl⟩⟩

theorem witness_DeinterleaveScatters : 2 * 2 < 5 ∧ 2 * 1 + 1 < 5 ∧ 2 * 0 < 1 := by decide
theorem witness_InterleaveInverse : 1 < a0.shape.length ∧ a0.data.length = shapeSize a0.shape ∧ (0 : Nat) ≠ 1 := by decide
theorem witness_LinearIndexIsRowMajor : inBounds [2, 3] [1, 2] = true ∧ lin [2, 3] [1, 2] = 5 ∧ 5 < shapeSize [2, 3] ∧
    m23.data.length = shapeSize m23.shape := by decide
theorem witness_lines : inBounds m23r.shape [1, 2] = true ∧ inBounds m23r.shape [0, 0] = true ∧ 1 < m23r.shape.length := by
  decide
theorem witness_AdaptPadsAndTruncates : 1 < m23.shape.length ∧ m23.data.length = shapeSize m23.shape ∧
    inBounds (m23.shape.set 1 4) [1, 2] = true ∧ [1, 2].getD 1 0 < m23.shape.getD 1 0 ∧
    inBounds (m23.shape.set 1 4) [1, 3] = true ∧ m23.shape.getD 1 0 ≤ [1, 3].getD 1 0 ∧ 3 = m23.shape.getD 1 0 := by decide
theorem witness_AdaptAllIsAdaptEach : [1, 0].Nodup ∧ (∀ a ∈ [1, 0], a < m23.shape.length) ∧ [1, 0].length = [4, 1].length := by
  decide
theorem witness_MirrorIsFlipThenRoll : (0 : Fin 3).val = 0 ∧ 1 ≤ (1 : Fin 3).val ∧ 1 ≤ (2 : Fin 3).val := by decide
theorem witness_RealArrays : (∀ a ∈ [1, 0], a < m23r.shape.length) ∧ m23r.data.length = shapeSize m23r.shape ∧
    [1, 0].Nodup ∧ [1, 0].Perm [0, 1] ∧ (1 : Nat) ≠ 0 ∧ 1 < m23r.shape.length ∧ (1 : Nat) ≤ 1 := by decide
theorem witness_CommandRoundTrip : let p := idealParams none (by simp)
    p.num = ideal ∧ m23r.wf p.maxElems = true ∧ (fN 1 false true 1 0 0 1).lg = false ∧
    ∃ y, commandResult p (.dct (fN 1 false true 1 0 0 1)) z8 z8 (.array m23r) = .ok y :=
  ⟨rfl, by decide, by decide, _, rfl⟩
end Sys2Proof.Machine.Test
end

section
/-! PROOFS. The host's actions on the state of spec/10_state.md: the register map, the register file, `STATUS` and `FCLR`, the
array registers, the issue of a command, and reset. -/

namespace Sys2Proof.Machine

/-! ### The register map (rules R29, R53) -/

/-- Every register is the one found at its offset. -/
theorem Reg.ofOffset?_offset (r : Reg) : Reg.ofOffset? r.offset = some r := by
  cases r with
  | cmd | status | fclr | seq => rfl
  | axis j => revert j; decide
  | len j => revert j; decide

theorem Reg.offset_aligned (r : Reg) : r.offset % 4 = 0 ∧ r.offset < 0x50 := by
  cases r with
  | cmd | status | fclr | seq => decide
  | axis j => simp only [Reg.offset]; omega
  | len j => simp only [Reg.offset]; omega

/-- A register found at an offset has that offset. -/
theorem Reg.offset_of_ofOffset? {off : Nat} {r : Reg} (h : Reg.ofOffset? off = some r) : r.offset = off := by
  unfold Reg.ofOffset? at h
  split_ifs at h <;> cases h <;> simp only [Reg.offset] <;> omega

/-- Every aligned offset inside the map is that of a register. -/
theorem Reg.exists_offset_eq {off : Nat} (h4 : off % 4 = 0) (hlt : off < 0x50) : ∃ r : Reg, r.offset = off := by
  have hrange : off = 0x00 ∨ off = 0x04 ∨ off = 0x08 ∨ off = 0x0C ∨ (0x10 ≤ off ∧ off < 0x30) ∨ 0x30 ≤ off := by omega
  rcases hrange with rfl | rfl | rfl | rfl | haxis | hlen
  · exact ⟨.cmd, rfl⟩
  · exact ⟨.status, rfl⟩
  · exact ⟨.fclr, rfl⟩
  · exact ⟨.seq, rfl⟩
  · exact ⟨.axis ⟨(off - 0x10) / 4, by omega⟩, by simp only [Reg.offset]; omega⟩
  · exact ⟨.len ⟨(off - 0x30) / 4, by omega⟩, by simp only [Reg.offset]; omega⟩

theorem Reg.ofOffset?_eq_none_iff (off : Nat) : Reg.ofOffset? off = none ↔ off % 4 ≠ 0 ∨ off ≥ 0x50 := by
  constructor
  · intro h
    by_contra hc
    obtain ⟨r, rfl⟩ := Reg.exists_offset_eq (off := off) (by omega) (by omega)
    rw [Reg.ofOffset?_offset] at h
    cases h
  · intro h
    cases hr : Reg.ofOffset? off with
    | none => rfl
    | some r =>
      have ho := Reg.offset_of_ofOffset? hr
      have hm := r.offset_aligned
      omega

/-- Settles O16: `offset` and `ofOffset?` are inverse to each other on the aligned offsets of the map. -/
theorem registerMap : Obligations.RegisterMap :=
  ⟨⟨rfl, rfl, rfl, rfl, fun j => Reg.ofOffset?_offset (.axis j), fun j => Reg.ofOffset?_offset (.len j)⟩,
    fun r => ⟨r.offset_aligned.1, r.offset_aligned.2, Reg.ofOffset?_offset r⟩,
    fun _ _ => Reg.offset_of_ofOffset?, Reg.ofOffset?_eq_none_iff⟩

/-! ### `STATUS` (rule R27) -/

/-- The bits of `STATUS`, one by one. -/
theorem Engine.statusWord_getLsbD {Re : Type} (s : Engine Re) (j : Nat) : s.statusWord.getLsbD j =
    if j = 0 then s.done else if j = 1 then s.fault else if j < 4 then false
    else if j < 8 then s.ecode.getLsbD (j - 4) else false := by
  unfold Engine.statusWord
  simp only [BitVec.getLsbD_append, BitVec.getLsbD_ofBool, BitVec.getLsbD_zero]
  match j with
  | 0 | 1 => simp
  | j + 2 => simp [show j < 2 ↔ j + 2 < 4 by omega, show j - 2 < 4 ↔ j + 2 < 8 by omega]

/-- Settles O13: each field of the word is compared with `STATUS` bit by bit. -/
theorem statusLayout : Obligations.StatusLayout := by
  intro s
  refine ⟨rfl, Engine.statusWord_getLsbD _ 0, Engine.statusWord_getLsbD _ 1,
    extractLsb'_eq _ _ _ fun j hj => ?_, extractLsb'_eq _ _ _ fun j hj => ?_, extractLsb'_eq _ _ _ fun j hj => ?_⟩
  all_goals rw [Engine.statusWord_getLsbD, if_neg (by omega), if_neg (by omega)]
  · rw [if_pos (by omega), BitVec.getLsbD_zero]
  · rw [if_neg (by omega), if_pos (by omega), Nat.add_sub_cancel_left]
  · rw [if_neg (by omega), if_neg (by omega), BitVec.getLsbD_zero]

/-! ### Consistent flags (rules R27, R33) -/

/-- With no fault pending the flags are consistent exactly when `ECODE` is 0, whatever `DONE` is. -/
theorem State.flagsOk_iff_of_no_fault {s : State} (hf : s.fault = false) : s.flagsOk = true ↔ s.ecode = 0#4 := by
  simp only [State.flagsOk, hf, Bool.and_false, Bool.not_false, Bool.true_and, Bool.and_eq_true, decide_eq_true_eq]
  constructor
  · rintro ⟨h, -⟩
    simpa using h
  · rintro h
    simp [h]

/-- The codes of the seven errors are 1 to 7, so the flags after fault entry are consistent (rules R220, R230). -/
theorem State.flagsOk_raise (s : State) (e : Cause) (x : Engine Elem) :
    ({ s with toEngine := x.raise e } : State).flagsOk = true := by
  cases e <;> rfl

/-- A command that completes was run with no fault pending, and leaves `ECODE` at 0 (rules R33, R234). -/
theorem State.flagsOk_complete {s : State} (hok : s.flagsOk = true) (hf : s.fault = false) (w : Word) (rd : Fin 4)
    (y : TArray Elem) : ({ s with toEngine := { s.toEngine with cmd := w }.complete rd y } : State).flagsOk = true := by
  have he : s.ecode = 0#4 := (State.flagsOk_iff_of_no_fault hf).1 hok
  refine (State.flagsOk_iff_of_no_fault ?_).2 ?_
  exacts [hf, he]

/-! ### `FCLR`, reads and reset -/

/-- Acknowledging changes nothing when no fault is pending and the flags are consistent. -/
theorem State.acknowledge_eq_self {s : State} (hok : s.flagsOk = true) (hf : s.fault = false) :
    s.toEngine.acknowledge = s.toEngine := by
  have he : s.ecode = 0#4 := (State.flagsOk_iff_of_no_fault hf).1 hok
  rw [Engine.acknowledge, ← hf, ← he]

/-- Settles O9: the write is the acknowledge, which has nothing to clear when no fault is pending. -/
theorem fclrAcknowledges : Obligations.FclrAcknowledges := by
  refine ⟨rfl, fun s v => ⟨rfl, fun hok hf => ?_, rfl⟩⟩
  rw [perform_write (by decide), Engine.store_fclr, State.acknowledge_eq_self hok hf]

/-- Settles O12: a read is performed by recording the register's value. -/
theorem readsHaveNoSideEffect : Obligations.ReadsHaveNoSideEffect :=
  fun s => ⟨fun i => perform_read i s, fun r => perform_readReg r s, rfl, rfl, rfl, fun _ => rfl, fun _ => rfl⟩

@[simp] theorem Engine.readA_reset {Re : Type} (i : Fin 4) : (Engine.reset : Engine Re).readA i = .empty := by
  simp [Engine.readA, Engine.reset]

/-- Settles O10: the register files are constant after reset, so each entry has the constant's value. -/
theorem resetValues : Obligations.ResetValues :=
  ⟨Engine.readA_reset, rfl, rfl, rfl, rfl, rfl, rfl, fun _ => Vector.getElem_replicate _, fun _ => Vector.getElem_replicate _⟩

/-- Settles O32: `Empty` registers are legal, and with no fault pending `ECODE` is 0. -/
theorem resetSound : Obligations.ResetSound :=
  ⟨Engine.reset_wf Config.maxElems, (State.flagsOk_iff_of_no_fault rfl).2 rfl⟩

/-! ### Writes of the host -/

/-- Settles O14: the written entry reads back, and every other entry of the file keeps its value. -/
theorem registerWrites : Obligations.RegisterWrites := by
  intro s j v
  have set_self : ∀ r : Vector Word 8, (r.set j v)[j] = v := fun r => Vector.getElem_set_self _
  have set_ne : ∀ (r : Vector Word 8) (k : Fin 8), k ≠ j → (r.set j v)[k] = r[k] :=
    fun r k hk => Vector.getElem_set_ne _ _ fun h => hk (Fin.ext h.symm)
  refine ⟨⟨_, rfl, set_self _, set_self _, fun k hk => ⟨set_ne _ k hk, set_ne _ k hk⟩, rfl⟩,
    ⟨_, rfl, set_self _, set_self _, fun k hk => ⟨set_ne _ k hk, set_ne _ k hk⟩, rfl⟩, rfl, rfl⟩

/-- Settles O15: a load is performed as a write of the array register when the value is legal, and refused when not. -/
theorem loadArrayWrites : Obligations.LoadArrayWrites := by
  refine fun s i v => ⟨fun hv => ⟨{ s with toEngine := s.toEngine.writeA i (.array v) }, ?_, ?_, ?_, rfl⟩, fun hv => ?_⟩
  · rw [perform_load, if_pos hv]
  · exact Engine.readA_writeA_self _ i _
  · exact fun j hj => Engine.readA_writeA_of_ne _ _ hj
  · rw [perform_load, if_neg (by simp [hv])]

/-! ### The issue of a command -/

/-- A `CMD` write with no fault pending stores the word and executes it (rule R24). -/
theorem step_cmd_of_no_fault {s : State} {w : Word} {rest : List (HostAction Elem)}
    (hp : s.pending = .writeReg .cmd w :: rest) (hf : s.fault = false) :
    step s = execute w { s with pending := rest, cmd := w } := by
  rw [step_action hp, perform_cmd, issue, if_neg (by simp [hf])]

/-- A word that spells a command is executed as that command. -/
theorem execute_of_decode_ok {w : Word} {i : Instr} (h : decode w = .ok i) (s : State) : execute w s = exec i s := by
  rw [execute, h]

/-- An illegal word takes `E_ILLEGAL` (rule R225). -/
theorem execute_of_decode_error {w : Word} {e : Illegal} (h : decode w = .error e) (s : State) :
    execute w s = .next { s with toEngine := s.toEngine.raise .eIllegal } := by
  rw [execute, h]

/-- Settles O6: the accepted write executes the word, and the word executes as the command it spells. -/
theorem stepRunsCommand : Obligations.StepRunsCommand :=
  fun _ _ _ _ hp hf hd => (step_cmd_of_no_fault hp hf).trans (execute_of_decode_ok hd _)

/-- Settles O7: the accepted write executes the word, and the word takes `E_ILLEGAL`. -/
theorem stepIllegalWord : Obligations.StepIllegalWord :=
  fun _ _ _ _ hp hf hd => (step_cmd_of_no_fault hp hf).trans (execute_of_decode_error hd _)

end Sys2Proof.Machine
end

section
/-! PROOFS. What commands and steps keep of the state: the invariant, what no command changes, the descriptor entries no
command reads, and who may change `SEQ`, the descriptors and the array registers (spec/10_state.md rules R21 to R35). -/

namespace Sys2Proof.Machine

/-! ### What a write to a register other than `CMD` leaves unchanged -/

@[simp] theorem Engine.storeReg_arrays {Re : Type} (s : Engine Re) (r : Reg) (v : Word) :
    (s.storeReg r v).arrays = s.arrays := by cases r <;> rfl
@[simp] theorem Engine.storeReg_cmd {Re : Type} (s : Engine Re) (r : Reg) (v : Word) :
    (s.storeReg r v).cmd = s.cmd := by cases r <;> rfl
@[simp] theorem Engine.storeReg_seq {Re : Type} (s : Engine Re) (r : Reg) (v : Word) :
    (s.storeReg r v).seq = s.seq := by cases r <;> rfl

@[simp] theorem Engine.readA_storeReg {Re : Type} (s : Engine Re) (r : Reg) (v : Word) (j : Fin 4) :
    (s.storeReg r v).readA j = s.readA j := by simp only [Engine.readA, Engine.storeReg_arrays]

/-- A register write that changes the axis file is one to an `AXISj`. -/
theorem Engine.storeReg_axis {Re : Type} (s : Engine Re) (r : Reg) (v : Word) :
    (s.storeReg r v).axis = s.axis ∨ ∃ j, r = .axis j := by
  cases r with
  | axis j => exact .inr ⟨j, rfl⟩
  | _ => exact .inl rfl

/-- A register write that changes the length file is one to a `LENj`. -/
theorem Engine.storeReg_len {Re : Type} (s : Engine Re) (r : Reg) (v : Word) :
    (s.storeReg r v).len = s.len ∨ ∃ j, r = .len j := by
  cases r with
  | len j => exact .inr ⟨j, rfl⟩
  | _ => exact .inl rfl

/-! ### The invariant -/

/-- A register write keeps consistent flags consistent: only `FCLR` touches them, and it clears `FAULT` and `ECODE` together. -/
theorem State.flagsOk_storeReg {s : State} (h : s.flagsOk = true) (r : Reg) (v : Word) :
    ({ s with toEngine := s.toEngine.storeReg r v } : State).flagsOk = true := by
  cases r with
  | fclr => exact (State.flagsOk_iff_of_no_fault rfl).2 rfl
  | _ => exact h

/-- Every action of the host keeps the state sound. -/
theorem perform_keeps_inv {a : HostAction Elem} {s t : State} (hs : s.Inv) (h : perform a s = .next t) : t.Inv := by
  obtain ⟨hw, hok⟩ := hs
  rcases perform_cases h with ⟨i, v, -, hv, rfl⟩ | ⟨i, -, rfl⟩ | ⟨w, -, -, rfl⟩ | ⟨w, i, y, -, hf, -, hy, rfl⟩ |
    ⟨w, e, -, -, rfl⟩ | ⟨r, v, -, -, rfl⟩ | ⟨r, -, rfl⟩ | ⟨-, rfl⟩
  · exact ⟨Engine.writeA_keeps_wf hw i (v := .array v) hv, hok⟩
  · exact ⟨hw, hok⟩
  · exact ⟨hw, hok⟩
  · have hy' : y.wf Config.maxElems = true := commandResult_wf (p := Config.params) (Engine.readA_wf hw _) hy
    exact ⟨Engine.complete_keeps_wf (s := { s.toEngine with cmd := w }) hw _ hy', State.flagsOk_complete hok hf w _ y⟩
  · exact ⟨hw, State.flagsOk_raise s e _⟩
  · exact ⟨Engine.storeReg_keeps_wf hw r v, State.flagsOk_storeReg hok r v⟩
  · exact ⟨hw, hok⟩
  · exact resetSound

/-- Settles O33: a step is idle or one action of the host. -/
theorem stepKeepsSound : Obligations.StepKeepsSound := by
  intro s t hs h
  rcases step_cases h with ⟨-, rfl⟩ | ⟨a, rest, -, ha⟩
  · exact hs
  · exact perform_keeps_inv (s := { s with pending := rest }) hs ha

/-! ### What no command changes -/

/-- What `MemRead` gives depends on the register it reads alone (rule R51). -/
theorem Engine.memRead_congr {Re : Type} {s t : Engine Re} {j : Fin 4} (h : t.readA j = s.readA j) (addr n : Nat) :
    t.memRead j addr n = s.memRead j addr n := by
  simp only [Engine.memRead, h]

/-- What a command can do: complete with its result, or take its error by fault entry. -/
theorem exec_cases {i : Instr} {s t : State} (h : exec i s = .next t) :
    (∃ y, commandResult Config.params i s.axis s.len (s.readA i.fields.rs) = .ok y ∧
        t = { s with toEngine := s.toEngine.complete i.fields.rd y }) ∨
      ∃ e, commandResult Config.params i s.axis s.len (s.readA i.fields.rs) = .error e ∧
        t = { s with toEngine := s.toEngine.raise e } := by
  rw [exec_eq] at h
  cases h
  rcases s.toEngine.finish_cases i.fields.rd (commandResult Config.params i s.axis s.len (s.readA i.fields.rs)) with
    ⟨y, hy, hfin⟩ | ⟨e, he, hfin⟩
  · exact .inl ⟨y, hy, by rw [hfin]⟩
  · exact .inr ⟨e, he, by rw [hfin]⟩

/-- Settles O26: completion writes `A[RD]` alone and sets `DONE`; fault entry writes no array register. -/
theorem commandFrame : Obligations.CommandFrame := by
  intro i s t h
  rcases exec_cases h with ⟨y, -, rfl⟩ | ⟨e, -, rfl⟩
  · have other : ∀ j, j ≠ i.fields.rd → (s.toEngine.complete i.fields.rd y).readA j = s.readA j :=
      fun j hj => Engine.readA_complete_of_ne _ y hj
    exact ⟨fun j hj => ⟨other j hj, Engine.memRead_congr (other j hj)⟩, fun hd => absurd hd (by simp),
      rfl, rfl, rfl, rfl, rfl⟩
  · exact ⟨fun j _ => ⟨rfl, Engine.memRead_congr rfl⟩, fun _ j => Engine.memRead_congr rfl, rfl, rfl, rfl, rfl, rfl⟩

/-! ### Which descriptor entries a command reads -/

/-- A legal `DCT` or `IDCT` has one axis if any is given, and one length if any is given (rule R79, L6 and L7). -/
theorem Fields.counts_of_countIllegal1 {f : Fields} (h : f.countIllegal1 = none) :
    (f.ag = true → f.nax = 1#4) ∧ (f.lg = true → f.nlen = 1#4) := by
  unfold Fields.countIllegal1 at h
  split at h
  · cases h
  · split_ifs at h with hax hlen
    exact ⟨fun hag => by_contra fun hn => hax ⟨hag, hn⟩, fun hlg => by_contra fun hn => hlen ⟨hlg, hn⟩⟩

/-- Register files that agree on the first `n` entries have the same first `n` entries as lists. -/
theorem take_toList_congr {v v' : Vector Word 8} {n : Nat} (h : ∀ j : Fin 8, j.val < n → v[j] = v'[j]) :
    v.toList.take n = v'.toList.take n := by
  refine List.ext_getElem (by simp) fun k hk _ => ?_
  simp only [List.length_take, Vector.length_toList, lt_min_iff] at hk
  simpa using h ⟨k, hk.2⟩ hk.1

section
variable {f : Fields} {axis axis' len len' : Vector Word 8}

theorem axisRaw1_congr (h : f.ag = true → axis[0] = axis'[0]) : axisRaw1 f axis = axisRaw1 f axis' := by
  unfold axisRaw1
  split
  · rw [h ‹_›]
  · rfl

theorem targetLen_congr (h : f.lg = true → len[0] = len'[0]) (sh : List Nat) (a : Nat) :
    targetLen f len sh a = targetLen f len' sh a := by
  unfold targetLen
  split
  · rw [h ‹_›]
  · rfl

theorem axesRaw_congr (h : f.ag = true → ∀ j : Fin 8, j.val < f.nax.toNat → axis[j] = axis'[j]) (r : Nat) :
    axesRaw f axis r = axesRaw f axis' r := by
  unfold axesRaw
  split
  · rw [take_toList_congr (h ‹_›)]
  · rfl

theorem lensOf_congr (h : f.lg = true → ∀ j : Fin 8, j.val < f.nlen.toNat → len[j] = len'[j]) :
    lensOf f len = lensOf f len' := by
  unfold lensOf
  split
  · rw [take_toList_congr (h ‹_›)]
  · rfl

/-- A command along one axis reads no descriptor entry but `AXIS0` and `LEN0`, and those only when they are given. -/
theorem command1_congr {α : Type} (p : Params α) (legal : Bool) (kernel : Norm → Nat → TArray α → TArray α) (src : AReg α)
    (ha : f.ag = true → axis[0] = axis'[0]) (hl : f.lg = true → len[0] = len'[0]) :
    command1 p legal kernel f axis len src = command1 p legal kernel f axis' len' src := by
  simp only [command1, check1, axisRaw1_congr ha, targetLen_congr hl]

/-- A command over a list of axes reads no descriptor entry but the first `NAX` and `NLEN`, and those only when they are
given. -/
theorem commandN_congr {α : Type} (p : Params α) (legal : Bool) (kernel : Norm → List Nat → TArray α → TArray α)
    (src : AReg α) (ha : f.ag = true → ∀ j : Fin 8, j.val < f.nax.toNat → axis[j] = axis'[j])
    (hl : f.lg = true → ∀ j : Fin 8, j.val < f.nlen.toNat → len[j] = len'[j]) :
    commandN p legal kernel f axis len src = commandN p legal kernel f axis' len' src := by
  simp only [commandN, checkN, axesRaw_congr ha, lensOf_congr hl]

/-- For a legal command along one axis, agreement on the selected entries is agreement on `AXIS0` and on `LEN0`. -/
theorem command1_congr_of_legal {α : Type} (p : Params α) (legal : Bool) (kernel : Norm → Nat → TArray α → TArray α)
    (src : AReg α) (hf : f.countIllegal1 = none)
    (ha : f.ag = true → ∀ j : Fin 8, j.val < f.nax.toNat → axis[j] = axis'[j])
    (hl : f.lg = true → ∀ j : Fin 8, j.val < f.nlen.toNat → len[j] = len'[j]) :
    command1 p legal kernel f axis len src = command1 p legal kernel f axis' len' src := by
  obtain ⟨hnax, hnlen⟩ := Fields.counts_of_countIllegal1 hf
  exact command1_congr p legal kernel src (fun h => ha h 0 (by simp [hnax h])) fun h => hl h 0 (by simp [hnlen h])

end

/-- Settles O29: the one-axis commands and the list commands, each by what its operands depend on. -/
theorem staleEntriesNotRead : Obligations.StaleEntriesNotRead := by
  intro p i axis axis' len len' src hwf ha hl
  have hlegal : i.illegal? = none := Option.isNone_iff_eq_none.1 hwf
  cases i with
  | dct f => exact command1_congr_of_legal p _ _ src hlegal ha hl
  | idct f => exact command1_congr_of_legal p _ _ src hlegal ha hl
  | dctn f => exact commandN_congr p _ _ src ha hl
  | idctn f => exact commandN_congr p _ _ src ha hl

/-! ### Who may change what -/

/-- What one action of the host does to `SEQ` (rule R32). -/
theorem perform_seq {a : HostAction Elem} {s t : State} (h : perform a s = .next t) :
    t.seq = s.seq ∨ (∃ w, a = .writeReg .cmd w ∧ s.fault = false ∧ t.done = true ∧ t.seq = s.seq + 1#32) ∨
      (a = .reset ∧ t.seq = 0#32) := by
  rcases perform_cases h with ⟨i, v, -, -, rfl⟩ | ⟨i, -, rfl⟩ | ⟨w, -, -, rfl⟩ | ⟨w, i, y, rfl, hf, -, -, rfl⟩ |
    ⟨w, e, -, -, rfl⟩ | ⟨r, v, -, -, rfl⟩ | ⟨r, -, rfl⟩ | ⟨rfl, rfl⟩
  · exact .inl rfl
  · exact .inl rfl
  · exact .inl rfl
  · exact .inr (.inl ⟨w, rfl, hf, rfl, rfl⟩)
  · exact .inl rfl
  · exact .inl (Engine.storeReg_seq _ r v)
  · exact .inl rfl
  · exact .inr (.inr ⟨rfl, rfl⟩)

/-- Settles O35: a step is idle or one action of the host. -/
theorem seqCountsCompletions : Obligations.SeqCountsCompletions := by
  intro s t h hne
  rcases step_cases h with ⟨-, rfl⟩ | ⟨a, rest, hp, ha⟩
  · exact absurd rfl hne
  · rcases perform_seq ha with heq | ⟨w, rfl, hf, hd, hs⟩ | ⟨rfl, hs⟩
    · exact absurd heq hne
    · exact .inl ⟨w, rest, hp, hf, hd, hs⟩
    · exact .inr ⟨rest, hp, hs⟩

/-- What one action of the host does to the descriptor files and to `CMD` (rules R24 to R26). -/
theorem perform_descriptors {a : HostAction Elem} {s t : State} (h : perform a s = .next t) :
    a = .reset ∨
      (t.axis = s.axis ∨ ∃ j v, a = .writeReg (.axis j) v) ∧ (t.len = s.len ∨ ∃ j v, a = .writeReg (.len j) v) ∧
        (t.cmd = s.cmd ∨ ∃ w, a = .writeReg .cmd w ∧ s.fault = false ∧ t.cmd = w) := by
  rcases perform_cases h with ⟨i, v, -, -, rfl⟩ | ⟨i, -, rfl⟩ | ⟨w, -, -, rfl⟩ | ⟨w, i, y, rfl, hf, -, -, rfl⟩ |
    ⟨w, e, rfl, hf, rfl⟩ | ⟨r, v, rfl, -, rfl⟩ | ⟨r, -, rfl⟩ | ⟨rfl, rfl⟩
  · exact .inr ⟨.inl rfl, .inl rfl, .inl rfl⟩
  · exact .inr ⟨.inl rfl, .inl rfl, .inl rfl⟩
  · exact .inr ⟨.inl rfl, .inl rfl, .inl rfl⟩
  · exact .inr ⟨.inl rfl, .inl rfl, .inr ⟨w, rfl, hf, rfl⟩⟩
  · exact .inr ⟨.inl rfl, .inl rfl, .inr ⟨w, rfl, hf, rfl⟩⟩
  · refine .inr ⟨(s.toEngine.storeReg_axis r v).imp_right ?_, (s.toEngine.storeReg_len r v).imp_right ?_,
      .inl (Engine.storeReg_cmd _ r v)⟩
    · rintro ⟨j, rfl⟩
      exact ⟨j, v, rfl⟩
    · rintro ⟨j, rfl⟩
      exact ⟨j, v, rfl⟩
  · exact .inr ⟨.inl rfl, .inl rfl, .inl rfl⟩
  · exact .inl rfl

/-- Settles O36: a step is idle or one action of the host. -/
theorem descriptorsOnlyByHost : Obligations.DescriptorsOnlyByHost := by
  intro s t h
  rcases step_cases h with ⟨-, rfl⟩ | ⟨a, rest, hp, ha⟩
  · exact ⟨fun hne => absurd rfl hne, fun hne => absurd rfl hne, fun hne => absurd rfl hne⟩
  · rcases perform_descriptors ha with rfl | ⟨haxis, hlen, hcmd⟩
    · exact ⟨fun _ => .inr ⟨rest, hp⟩, fun _ => .inr ⟨rest, hp⟩, fun _ => .inr ⟨rest, hp⟩⟩
    · refine ⟨fun hne => .inl ?_, fun hne => .inl ?_, fun hne => .inl ?_⟩
      · obtain ⟨j, v, rfl⟩ := haxis.resolve_left hne
        exact ⟨j, v, rest, hp⟩
      · obtain ⟨j, v, rfl⟩ := hlen.resolve_left hne
        exact ⟨j, v, rest, hp⟩
      · obtain ⟨w, rfl, hf, hw⟩ := hcmd.resolve_left hne
        exact ⟨w, rest, hp, hf, hw⟩

/-- What one action of the host does to an array register (rules R22, R23). -/
theorem perform_readA {a : HostAction Elem} {s t : State} (h : perform a s = .next t) (j : Fin 4) :
    t.readA j = s.readA j ∨ (∃ v, a = .loadArray j v ∧ t.readA j = .array v) ∨
      (∃ w i, a = .writeReg .cmd w ∧ s.fault = false ∧ decode w = .ok i ∧ i.fields.rd = j ∧ t.done = true) ∨
      (a = .reset ∧ t.readA j = .empty) := by
  rcases perform_cases h with ⟨i, v, rfl, -, rfl⟩ | ⟨i, -, rfl⟩ | ⟨w, -, -, rfl⟩ | ⟨w, i, y, rfl, hf, hd, -, rfl⟩ |
    ⟨w, e, -, -, rfl⟩ | ⟨r, v, -, -, rfl⟩ | ⟨r, -, rfl⟩ | ⟨rfl, rfl⟩
  · by_cases hj : j = i
    · subst hj
      exact .inr (.inl ⟨v, rfl, Engine.readA_writeA_self _ j _⟩)
    · exact .inl (Engine.readA_writeA_of_ne _ _ hj)
  · exact .inl rfl
  · exact .inl rfl
  · by_cases hj : j = i.fields.rd
    · exact .inr (.inr (.inl ⟨w, i, rfl, hf, hd, hj.symm, rfl⟩))
    · exact .inl (Engine.readA_complete_of_ne _ y hj)
  · exact .inl rfl
  · exact .inl (Engine.readA_storeReg _ r v j)
  · exact .inl rfl
  · exact .inr (.inr (.inr ⟨rfl, Engine.readA_reset j⟩))

/-- Settles O37: a step is idle or one action of the host. -/
theorem arraysOnlyByLoadAndCommand : Obligations.ArraysOnlyByLoadAndCommand := by
  intro s t j h hne
  rcases step_cases h with ⟨-, rfl⟩ | ⟨a, rest, hp, ha⟩
  · exact absurd rfl hne
  · rcases perform_readA ha j with heq | ⟨v, rfl, hv⟩ | ⟨w, i, rfl, hf, hd, hrd, hdone⟩ | ⟨rfl, he⟩
    · exact absurd heq hne
    · exact .inl ⟨v, rest, hp, hv⟩
    · exact .inr (.inl ⟨w, rest, i, hp, hf, hd, hrd, hdone⟩)
    · exact .inr (.inr ⟨rest, hp, he⟩)

end Sys2Proof.Machine
end

section
/-! PROOFS. The element stores of spec/20_memory.md: the row-major linear index (rule R51), and the destination of a command,
which has no part in its result (rule R56). -/

namespace Sys2Proof.Machine

/-! ### The linear index (rule R51) -/

/-- A list with one coordinate per axis, each below the extent, is a multi-index of the shape. -/
theorem inBounds_of_getD : ∀ {sh i : List Nat}, i.length = sh.length → (∀ a < sh.length, i.getD a 0 < sh.getD a 0) →
    inBounds sh i = true
  | [], [], _, _ => rfl
  | d :: ds, k :: ks, hlen, hlt => by
    have htail : inBounds ds ks = true := by
      refine inBounds_of_getD (by simpa using hlen) fun a ha => ?_
      simpa using hlt (a + 1) (by simpa using ha)
    have hhead : k < d := by simpa using hlt 0 (by simp)
    simp [inBounds, hhead, htail]

theorem inBounds_iff (sh i : List Nat) :
    inBounds sh i = true ↔ i.length = sh.length ∧ ∀ a < sh.length, i.getD a 0 < sh.getD a 0 :=
  ⟨fun h => ⟨inBounds_length h, fun _ ha => inBounds_getD h ha⟩, fun ⟨hlen, hlt⟩ => inBounds_of_getD hlen hlt⟩

/-- The linear index as the sum over the axes of the coordinate times its stride. -/
theorem lin_eq_sum_strides : ∀ {sh i : List Nat}, i.length = sh.length →
    lin sh i = ((List.range sh.length).map fun a => i.getD a 0 * shapeSize (sh.drop (a + 1))).sum
  | [], [], _ => rfl
  | d :: ds, k :: ks, hlen => by
    have htail := lin_eq_sum_strides (sh := ds) (i := ks) (by simpa using hlen)
    simp [lin, htail, List.range_succ_eq_map, Function.comp_def]

/-- Two multi-indices of a shape with one linear index are equal. -/
theorem lin_injective {sh i i' : List Nat} (h : inBounds sh i = true) (h' : inBounds sh i' = true)
    (heq : lin sh i = lin sh i') : i = i' := by
  rw [← unlin_lin h, heq, unlin_lin h']

/-- A full array holds the element at a multi-index at its linear index. -/
theorem TArray.getElem?_lin {α : Type} (z : α) {x : TArray α} {i : List Nat} (hfull : x.data.length = shapeSize x.shape)
    (h : inBounds x.shape i = true) : x.data[lin x.shape i]? = some (x.at z i) := by
  have hlt : lin x.shape i < x.data.length := hfull ▸ lin_lt h
  simp [TArray.at, h, hlt]

/-- Settles O44: `unlin` gives the multi-index of each number below the size, and `lin` is injective on multi-indices. -/
theorem linearIndexIsRowMajor : Obligations.LinearIndexIsRowMajor := by
  refine ⟨inBounds_iff, fun sh i h => ⟨lin_lt h, lin_eq_sum_strides (inBounds_length h)⟩, fun sh k hk => ?_,
    fun _ z _ _ => TArray.getElem?_lin z⟩
  have hb := unlin_inBounds hk
  exact ⟨unlin sh k, hb, lin_unlin hk, fun i' h' heq => lin_injective h' hb (heq.trans (lin_unlin hk).symm)⟩

/-! ### The destination of a command (rules R22, R56) -/

/-- A command with its destination register number replaced. -/
def withDestination (i : Instr) (d : Fin 4) : Instr :=
  match i with
  | .dct f => .dct { f with rd := d }
  | .idct f => .idct { f with rd := d }
  | .dctn f => .dctn { f with rd := d }
  | .idctn f => .idctn { f with rd := d }

@[simp] theorem withDestination_fields (i : Instr) (d : Fin 4) :
    (withDestination i d).fields = { i.fields with rd := d } := by cases i <;> rfl

/-- No check and no kernel of a command along one axis looks at `RD`. -/
theorem command1_rd {α : Type} (p : Params α) (legal : Bool) (kernel : Norm → Nat → TArray α → TArray α) (f : Fields)
    (d : Fin 4) (axis len : Vector Word 8) (src : AReg α) :
    command1 p legal kernel { f with rd := d } axis len src = command1 p legal kernel f axis len src := rfl

/-- No check and no kernel of a command over a list of axes looks at `RD`. -/
theorem commandN_rd {α : Type} (p : Params α) (legal : Bool) (kernel : Norm → List Nat → TArray α → TArray α) (f : Fields)
    (d : Fin 4) (axis len : Vector Word 8) (src : AReg α) :
    commandN p legal kernel { f with rd := d } axis len src = commandN p legal kernel f axis len src := rfl

/-- The destination has no part in the result or the error of a command; its legality does not look at `RD` either. -/
theorem commandResult_withDestination {α : Type} (p : Params α) (i : Instr) (d : Fin 4) (axis len : Vector Word 8)
    (src : AReg α) : commandResult p (withDestination i d) axis len src = commandResult p i axis len src := by
  cases i with
  | dct f => exact command1_rd p (Instr.dct f).wf _ f d axis len src
  | idct f => exact command1_rd p (Instr.idct f).wf _ f d axis len src
  | dctn f => exact commandN_rd p (Instr.dctn f).wf _ f d axis len src
  | idctn f => exact commandN_rd p (Instr.idctn f).wf _ f d axis len src

/-- A command that has a result ends with it in the destination register. -/
theorem exec_readA_of_ok {i : Instr} {s : State} {y : TArray Elem}
    (h : commandResult Config.params i s.axis s.len (s.readA i.fields.rs) = .ok y) :
    ∃ t, exec i s = .next t ∧ t.readA i.fields.rd = .array y :=
  ⟨_, exec_eq i s, by rw [h]; exact Engine.readA_complete_self _ _ y⟩

/-- A command that has a result ends with it in any register put in the destination's place. -/
theorem exec_withDestination_of_ok {i : Instr} {s : State} {y : TArray Elem} (d : Fin 4)
    (h : commandResult Config.params i s.axis s.len (s.readA i.fields.rs) = .ok y) :
    ∃ t, exec (withDestination i d) s = .next t ∧ t.readA d = .array y := by
  have hd : commandResult Config.params (withDestination i d) s.axis s.len (s.readA (withDestination i d).fields.rs) =
      .ok y := by rw [commandResult_withDestination, withDestination_fields]; exact h
  simpa using exec_readA_of_ok hd

/-- Settles O27: each of the four commands by the one rule for the result with another destination. -/
theorem resultIgnoresDestination : Obligations.ResultIgnoresDestination :=
  fun f d _ _ => ⟨exec_withDestination_of_ok (i := .dct f) d, exec_withDestination_of_ok (i := .idct f) d,
    exec_withDestination_of_ok (i := .dctn f) d, exec_withDestination_of_ok (i := .idctn f) d⟩

end Sys2Proof.Machine
end

section
/-! PROOFS. The command word of spec/30_encoding.md: a word that decodes and the word of a legal command are each other's
inverse (rules R71, R72), the words that raise `E_ILLEGAL` (rules R79, R80), and the expansion of the assembler's command
statements (rule R81). -/

namespace Sys2Proof

/-! ### Legality of a command (rule R79) -/

theorem Fields.countIllegal_eq_none_iff (f : Fields) : f.countIllegal = none ↔
    (f.ag = false → f.nax.toNat = 0) ∧ (f.lg = false → f.nlen.toNat = 0) ∧ f.nax.toNat ≤ 8 ∧ f.nlen.toNat ≤ 8 := by
  have hnax : f.nax = 0#4 ↔ f.nax.toNat = 0 := BitVec.toNat_eq
  have hnlen : f.nlen = 0#4 ↔ f.nlen.toNat = 0 := BitVec.toNat_eq
  rw [← hnax, ← hnlen, Fields.countIllegal]
  split_ifs with hax hln hmany <;> grind

theorem Fields.countIllegal1_eq_none_iff (f : Fields) : f.countIllegal1 = none ↔
    f.countIllegal = none ∧ (f.ag = true → f.nax.toNat = 1) ∧ (f.lg = true → f.nlen.toNat = 1) := by
  have hnax : f.nax = 1#4 ↔ f.nax.toNat = 1 := BitVec.toNat_eq
  have hnlen : f.nlen = 1#4 ↔ f.nlen.toNat = 1 := BitVec.toNat_eq
  rw [← hnax, ← hnlen, Fields.countIllegal1]
  cases f.countIllegal with
  | some e => simp
  | none =>
    dsimp only
    split_ifs with hax hln <;> grind

/-- The conditions L3 to L7 all fail: L3 to L5, which bind all four commands, and L6 and L7, which bind `DCT` and `IDCT`,
the commands of opcode 1 and 2. -/
def Fields.CountsLegal (f : Fields) (opc : BitVec 4) : Prop :=
  ((f.ag.toNat = 0 → f.nax.toNat = 0) ∧ (f.lg.toNat = 0 → f.nlen.toNat = 0) ∧ f.nax.toNat ≤ 8 ∧ f.nlen.toNat ≤ 8) ∧
    (opc.toNat = 1 ∨ opc.toNat = 2 → (f.ag.toNat = 1 → f.nax.toNat = 1) ∧ (f.lg.toNat = 1 → f.nlen.toNat = 1))

/-- A command is well-formed exactly when its counts are legal for its opcode. -/
theorem Instr.wf_iff (i : Instr) : i.wf = true ↔ i.fields.CountsLegal i.opc := by
  simp only [Fields.CountsLegal, Bool.toNat_eq_zero, Bool.toNat_eq_one]
  rw [← Fields.countIllegal_eq_none_iff, Instr.wf, Option.isNone_iff_eq_none]
  cases i with
  | dct f | idct f => simp [Instr.illegal?, Instr.opc, Instr.fields, Fields.countIllegal1_eq_none_iff]
  | dctn f | idctn f => simp [Instr.illegal?, Instr.opc, Instr.fields]

/-! ### The decoder -/

theorem Instr.opc_toNat (i : Instr) :
    i.opc.toNat = 1 ∨ i.opc.toNat = 2 ∨ i.opc.toNat = 3 ∨ i.opc.toNat = 4 := by cases i <;> simp [Instr.opc]

@[simp] theorem instrOf_opc_fields (i : Instr) : instrOf i.opc i.fields = some i := by cases i <;> rfl

/-- The decoder picks the command that has the opcode and the fields of the word. -/
theorem instrOf_eq_some_iff {o : BitVec 4} {f : Fields} {i : Instr} :
    instrOf o f = some i ↔ i.opc = o ∧ i.fields = f := by
  constructor
  · intro h
    unfold instrOf at h
    split_ifs at h <;> cases h <;> exact ⟨.symm ‹_›, rfl⟩
  · rintro ⟨rfl, rfl⟩
    exact instrOf_opc_fields i

/-- The four opcodes are those of the four commands. -/
theorem exists_instrOf_eq_some_iff (o : BitVec 4) (f : Fields) :
    (∃ i, instrOf o f = some i) ↔ o.toNat = 1 ∨ o.toNat = 2 ∨ o.toNat = 3 ∨ o.toNat = 4 := by
  constructor
  · rintro ⟨i, hi⟩
    rw [← (instrOf_eq_some_iff.1 hi).1]
    exact i.opc_toNat
  · have ho : ∀ k : BitVec 4, o.toNat = k.toNat → o = k := fun _ => BitVec.eq_of_toNat_eq
    rintro (h | h | h | h)
    · exact ⟨.dct f, instrOf_eq_some_iff.2 ⟨(ho 1#4 h).symm, rfl⟩⟩
    · exact ⟨.idct f, instrOf_eq_some_iff.2 ⟨(ho 2#4 h).symm, rfl⟩⟩
    · exact ⟨.dctn f, instrOf_eq_some_iff.2 ⟨(ho 3#4 h).symm, rfl⟩⟩
    · exact ⟨.idctn f, instrOf_eq_some_iff.2 ⟨(ho 4#4 h).symm, rfl⟩⟩

/-- What a word that decodes is: the opcode and the fields of a legal command, over zero reserved bits. -/
theorem decode_eq_ok_iff {w : Word} {i : Instr} : decode w = .ok i ↔
    instrOf (opcField w) (fieldsOf w) = some i ∧ reservedField w = 0#8 ∧ i.wf = true := by
  unfold decode
  cases hi : instrOf (opcField w) (fieldsOf w) with
  | none => simp
  | some j =>
    by_cases hr : reservedField w = 0#8
    · cases hl : j.illegal? with
      | some e =>
        have hj : ∀ i, j = i → i.wf = false := by rintro i rfl; rw [Instr.wf, hl]; rfl
        simpa [hr, hl] using hj i
      | none =>
        have hj : ∀ i, j = i → i.wf = true := by rintro i rfl; rw [Instr.wf, hl]; rfl
        simpa [hr, hl] using hj i
    · simp [hr]

/-! ### Decoding and encoding -/

/-- The word of a legal command decodes to it (rules R71, R72). -/
theorem decode_encode {i : Instr} (h : i.wf = true) : decode (encode i) = .ok i := by
  refine decode_eq_ok_iff.2 ⟨?_, reservedField_encodeFields _ _, h⟩
  rw [encode, opcField_encodeFields, fieldsOf_encodeFields, instrOf_opc_fields]

/-- Words with the same slice have the same bits there. -/
theorem getLsbD_eq_of_extractLsb'_eq {v w : Word} {lo n j : Nat} (h : v.extractLsb' lo n = w.extractLsb' lo n)
    (hlo : lo ≤ j) (hj : j < lo + n) : v.getLsbD j = w.getLsbD j := by
  have hb := congrArg (BitVec.getLsbD · (j - lo)) h
  simpa [show j - lo < n by omega, Nat.add_sub_cancel' hlo] using hb

/-- The opcode, the fields and the reserved bits are all of a word (rule R71). -/
theorem word_ext {v w : Word} (ho : opcField v = opcField w) (hr : reservedField v = reservedField w)
    (hf : fieldsOf v = fieldsOf w) : v = w := by
  simp only [fieldsOf, Fields.mk.injEq] at hf
  obtain ⟨htype, hnorm, hlg, hag, hnax, hnlen, hrs, hrd⟩ := hf
  refine BitVec.eq_of_getLsbD_eq fun j hj => ?_
  have hplace : j < 4 ∨ (4 ≤ j ∧ j < 8) ∨ (8 ≤ j ∧ j < 10) ∨ j = 10 ∨ j = 11 ∨ (12 ≤ j ∧ j < 16) ∨ (16 ≤ j ∧ j < 20) ∨
      (20 ≤ j ∧ j < 22) ∨ (22 ≤ j ∧ j < 24) ∨ 24 ≤ j := by omega
  rcases hplace with h | h | h | rfl | rfl | h | h | h | h | h
  · exact getLsbD_eq_of_extractLsb'_eq ho (by omega) (by omega)
  · exact getLsbD_eq_of_extractLsb'_eq htype h.1 h.2
  · exact getLsbD_eq_of_extractLsb'_eq hnorm h.1 h.2
  · exact hlg
  · exact hag
  · exact getLsbD_eq_of_extractLsb'_eq hnax h.1 h.2
  · exact getLsbD_eq_of_extractLsb'_eq hnlen h.1 h.2
  · exact getLsbD_eq_of_extractLsb'_eq (BitVec.toFin_inj.1 hrs) h.1 h.2
  · exact getLsbD_eq_of_extractLsb'_eq (BitVec.toFin_inj.1 hrd) h.1 h.2
  · exact getLsbD_eq_of_extractLsb'_eq hr h (by omega)

/-- Settles O1: the encoder puts opcode, fields and zero reserved bits where the decoder reads them. -/
theorem decodeOfEncode : Obligations.DecodeOfEncode :=
  fun _ => decode_encode

/-- Settles O2: the word and its command's encoding agree on opcode, reserved bits and fields, which are all of a word. -/
theorem encodeOfDecode : Obligations.EncodeOfDecode := by
  intro w i h
  obtain ⟨hi, hr, hwf⟩ := decode_eq_ok_iff.1 h
  obtain ⟨ho, hf⟩ := instrOf_eq_some_iff.1 hi
  refine ⟨word_ext ?_ ?_ ?_, hwf⟩
  · rw [encode, opcField_encodeFields, ho]
  · rw [encode, reservedField_encodeFields, hr]
  · rw [encode, fieldsOf_encodeFields, hf]

/-- Settles O4: six closed words, decoded. -/
theorem wordsOfTheSpecDecode : Obligations.WordsOfTheSpecDecode := by
  unfold Obligations.WordsOfTheSpecDecode
  decide

/-! ### The words that decode, by their bits (rules R79, R80) -/

theorem opcField_toNat (w : Word) : (opcField w).toNat = w.toNat % 16 := by simp [opcField]

theorem reservedField_eq_zero_iff (w : Word) : reservedField w = 0#8 ↔ w.toNat / 2 ^ 24 = 0 := by
  have hw := w.isLt
  rw [← BitVec.toNat_inj, reservedField, BitVec.extractLsb'_toNat, Nat.shiftRight_eq_div_pow]
  exact Eq.congr_left (Nat.mod_eq_of_lt (by omega))

theorem fieldsOf_nax_toNat (w : Word) : (fieldsOf w).nax.toNat = w.toNat / 2 ^ 12 % 16 := by
  simp [fieldsOf, Nat.shiftRight_eq_div_pow]

theorem fieldsOf_nlen_toNat (w : Word) : (fieldsOf w).nlen.toNat = w.toNat / 2 ^ 16 % 16 := by
  simp [fieldsOf, Nat.shiftRight_eq_div_pow]

theorem fieldsOf_lg_toNat (w : Word) : (fieldsOf w).lg.toNat = w.toNat / 2 ^ 10 % 2 := Nat.toNat_testBit _ _

theorem fieldsOf_ag_toNat (w : Word) : (fieldsOf w).ag.toNat = w.toNat / 2 ^ 11 % 2 := Nat.toNat_testBit _ _

/-- A word spells a command exactly when its opcode is known, its reserved bits are 0 and its counts are legal for the
opcode. -/
theorem exists_decode_eq_ok_iff (w : Word) : (∃ i, decode w = .ok i) ↔
    ((opcField w).toNat = 1 ∨ (opcField w).toNat = 2 ∨ (opcField w).toNat = 3 ∨ (opcField w).toNat = 4) ∧
    reservedField w = 0#8 ∧ (fieldsOf w).CountsLegal (opcField w) := by
  rw [← exists_instrOf_eq_some_iff _ (fieldsOf w)]
  constructor
  · rintro ⟨i, h⟩
    obtain ⟨hi, hr, hwf⟩ := decode_eq_ok_iff.1 h
    obtain ⟨ho, hf⟩ := instrOf_eq_some_iff.1 hi
    rw [Instr.wf_iff, ho, hf] at hwf
    exact ⟨⟨i, hi⟩, hr, hwf⟩
  · rintro ⟨⟨i, hi⟩, hr, hwf⟩
    obtain ⟨ho, hf⟩ := instrOf_eq_some_iff.1 hi
    rw [← ho, ← hf, ← Instr.wf_iff] at hwf
    exact ⟨i, decode_eq_ok_iff.2 ⟨hi, hr, hwf⟩⟩

end Sys2Proof

namespace Sys2Proof.Machine

/-! ### Which commands raise `E_ILLEGAL` (rules R225, R229) -/

theorem Cause.code_eq_eIllegal_iff (e : Cause) : e.code = Cause.eIllegal.code ↔ e = .eIllegal := by cases e <;> decide

/-- The word of a legal command passes step 1 of rule R229. -/
theorem checkWord_ne_eIllegal (f : Fields) : checkWord true f ≠ .error .eIllegal := by
  rw [checkWord, if_neg (by simp)]
  split_ifs
  · simp
  · split <;> simp

theorem checkSource_ne_eIllegal {α : Type} (src : AReg α) : checkSource src ≠ .error .eIllegal := by
  cases src <;> simp [checkSource]

theorem check1_ne_eIllegal (c : Option Nat) (f : Fields) (axis len : Vector Word 8) (sh : List Nat) :
    check1 c f axis len sh ≠ .error .eIllegal := by
  unfold check1
  split
  · simp
  · split_ifs <;> simp

theorem checkN_ne_eIllegal (c : Option Nat) (f : Fields) (axis len : Vector Word 8) (sh : List Nat) :
    checkN c f axis len sh ≠ .error .eIllegal := by
  unfold checkN
  repeat' split
  all_goals simp

section
variable {α : Type} {p : Params α} {legal : Bool} {f : Fields} {axis len : Vector Word 8} {src : AReg α}

/-- The error of a command along one axis is that of one of its checks. -/
theorem command1_error {kernel : Norm → Nat → TArray α → TArray α} {e : Cause}
    (h : command1 p legal kernel f axis len src = .error e) :
    checkWord legal f = .error e ∨ checkSource src = .error e ∨ ∃ sh, check1 p.maxElems f axis len sh = .error e := by
  unfold command1 at h
  split at h
  · cases h; exact .inl ‹_›
  · split at h
    · cases h; exact .inr (.inl ‹_›)
    · split at h
      · cases h; exact .inr (.inr ⟨_, ‹_›⟩)
      · cases h

/-- The error of a command over a list of axes is that of one of its checks. -/
theorem commandN_error {kernel : Norm → List Nat → TArray α → TArray α} {e : Cause}
    (h : commandN p legal kernel f axis len src = .error e) :
    checkWord legal f = .error e ∨ checkSource src = .error e ∨ ∃ sh, checkN p.maxElems f axis len sh = .error e := by
  unfold commandN at h
  split at h
  · cases h; exact .inl ‹_›
  · split at h
    · cases h; exact .inr (.inl ‹_›)
    · split at h
      · cases h; exact .inr (.inr ⟨_, ‹_›⟩)
      · cases h

theorem command1_ne_eIllegal (hlegal : legal = true) (kernel : Norm → Nat → TArray α → TArray α) :
    command1 p legal kernel f axis len src ≠ .error .eIllegal := by
  subst hlegal
  intro h
  rcases command1_error h with hw | hs | ⟨sh, hc⟩
  · exact checkWord_ne_eIllegal f hw
  · exact checkSource_ne_eIllegal src hs
  · exact check1_ne_eIllegal _ f axis len sh hc

theorem commandN_ne_eIllegal (hlegal : legal = true) (kernel : Norm → List Nat → TArray α → TArray α) :
    commandN p legal kernel f axis len src ≠ .error .eIllegal := by
  subst hlegal
  intro h
  rcases commandN_error h with hw | hs | ⟨sh, hc⟩
  · exact checkWord_ne_eIllegal f hw
  · exact checkSource_ne_eIllegal src hs
  · exact checkN_ne_eIllegal _ f axis len sh hc

end

/-- No legal command has the error `E_ILLEGAL`. -/
theorem commandResult_ne_eIllegal {α : Type} (p : Params α) {i : Instr} (h : i.wf = true) (axis len : Vector Word 8)
    (src : AReg α) : commandResult p i axis len src ≠ .error .eIllegal := by
  cases i with
  | dct f => exact command1_ne_eIllegal h _
  | idct f => exact command1_ne_eIllegal h _
  | dctn f => exact commandN_ne_eIllegal h _
  | idctn f => exact commandN_ne_eIllegal h _

/-- No legal command ends in fault entry with `E_ILLEGAL`: completion sets `DONE`, and another error has another code. -/
theorem exec_ne_raise_eIllegal {i : Instr} (hwf : i.wf = true) (s : State) :
    exec i s ≠ .next { s with toEngine := s.toEngine.raise .eIllegal } := by
  intro h
  rcases exec_cases h with ⟨y, -, ht⟩ | ⟨e, he, ht⟩
  · have hdone : false = true := congrArg (fun t : State => t.done) ht
    cases hdone
  · have hcode : Cause.eIllegal.code = e.code := congrArg (fun t : State => t.ecode) ht
    rw [(Cause.code_eq_eIllegal_iff e).1 hcode.symm] at he
    exact commandResult_ne_eIllegal _ hwf _ _ _ he

/-- Executing a word raises `E_ILLEGAL` exactly when it spells no command (rules R80, R225). -/
theorem execute_eq_raise_eIllegal_iff (w : Word) (s : State) :
    execute w s = .next { s with toEngine := s.toEngine.raise .eIllegal } ↔ ¬∃ i, decode w = .ok i := by
  cases hd : decode w with
  | error e => simp [execute_of_decode_error hd]
  | ok i =>
    rw [execute_of_decode_ok hd]
    have hwf : i.wf = true := (decode_eq_ok_iff.1 hd).2.2
    simpa using exec_ne_raise_eIllegal hwf s

/-- Settles O3: fault entry with `E_ILLEGAL` is the failure to decode, which the bits of the word decide. -/
theorem illegalExactlyWhen : Obligations.IllegalExactlyWhen := by
  intro w s
  rw [execute_eq_raise_eIllegal_iff, exists_decode_eq_ok_iff, reservedField_eq_zero_iff, Fields.CountsLegal, opcField_toNat,
    fieldsOf_lg_toNat, fieldsOf_ag_toNat, fieldsOf_nax_toNat, fieldsOf_nlen_toNat]
  omega

/-! ### The assembler's command statements (rule R81) -/

/-- The lists of a command statement fit its descriptor registers: axes of 32 bits, and no more than eight entries. -/
def Spelled (lens : Option (List Word)) (axes : Option (List Int)) : Prop :=
  (∀ a ∈ axes.getD [], -2 ^ 31 ≤ a ∧ a < 2 ^ 31) ∧ (axes.getD []).length ≤ 8 ∧ (lens.getD []).length ≤ 8

/-- One descriptor write per axis in order, then one per length in order (rule R81). -/
def descriptorWrites (lens : Option (List Word)) (axes : Option (List Int)) : List (HostAction Elem) :=
  List.zipWith (fun (j : Fin 8) (a : Int) => .writeReg (.axis j) (BitVec.ofInt 32 a)) (List.finRange 8) (axes.getD []) ++
    List.zipWith (fun (j : Fin 8) (n : Word) => .writeReg (.len j) n) (List.finRange 8) (lens.getD [])

/-- The registers from `j` on begin with register `j`. -/
theorem finRange_drop_eq_cons {n j : Nat} (h : j < n) :
    (List.finRange n).drop j = ⟨j, h⟩ :: (List.finRange n).drop (j + 1) := by
  rw [List.drop_eq_getElem_cons (by simpa using h)]
  simp

/-- Axes in range that have registers are written to the registers from `j` on, in order. -/
theorem axisWrites_eq_some : ∀ {as : List Int} {j : Nat}, (∀ a ∈ as, -2 ^ 31 ≤ a ∧ a < 2 ^ 31) → j + as.length ≤ 8 →
    axisWrites j as = some (List.zipWith (fun (j : Fin 8) (a : Int) => .writeReg (.axis j) (BitVec.ofInt 32 a))
      ((List.finRange 8).drop j) as)
  | [], _, _, _ => by simp [axisWrites]
  | a :: as, j, hr, hl => by
    obtain ⟨ha, has⟩ := List.forall_mem_cons.1 hr
    rw [List.length_cons] at hl
    have hj : j < 8 := by omega
    rw [axisWrites, dif_pos hj, axisWrites_eq_some has (by omega), axisWord, if_pos ha, finRange_drop_eq_cons hj]
    rfl

/-- Only axes in range that have registers are written. -/
theorem spelled_of_axisWrites_eq_some : ∀ {as : List Int} {j : Nat} {ws : List (HostAction Elem)}, j ≤ 8 →
    axisWrites j as = some ws → (∀ a ∈ as, -2 ^ 31 ≤ a ∧ a < 2 ^ 31) ∧ j + as.length ≤ 8
  | [], _, _, hj, _ => ⟨by simp, hj⟩
  | a :: as, j, ws, _, h => by
    rw [axisWrites] at h
    split_ifs at h with hj
    split at h
    next w ws' ha has =>
      obtain ⟨hr, hl⟩ := spelled_of_axisWrites_eq_some hj has
      have hrange : -2 ^ 31 ≤ a ∧ a < 2 ^ 31 := by
        by_contra hn
        rw [axisWord, if_neg hn] at ha
        cases ha
      exact ⟨List.forall_mem_cons.2 ⟨hrange, hr⟩, by rw [List.length_cons]; omega⟩
    next => cases h

/-- Lengths that have registers are written to the registers from `j` on, in order. -/
theorem lenWrites_eq_some : ∀ {ns : List Word} {j : Nat}, j + ns.length ≤ 8 →
    lenWrites j ns = some (List.zipWith (fun (j : Fin 8) (n : Word) => .writeReg (.len j) n) ((List.finRange 8).drop j) ns)
  | [], _, _ => by simp [lenWrites]
  | n :: ns, j, hl => by
    rw [List.length_cons] at hl
    have hj : j < 8 := by omega
    rw [lenWrites, dif_pos hj, lenWrites_eq_some (by omega), finRange_drop_eq_cons hj]
    rfl

/-- Only lengths that have registers are written. -/
theorem length_le_of_lenWrites_eq_some : ∀ {ns : List Word} {j : Nat} {ws : List (HostAction Elem)}, j ≤ 8 →
    lenWrites j ns = some ws → j + ns.length ≤ 8
  | [], _, _, hj, _ => hj
  | n :: ns, j, ws, _, h => by
    rw [lenWrites] at h
    split_ifs at h with hj
    split at h
    next ws' hns =>
      have hl := length_le_of_lenWrites_eq_some hj hns
      rw [List.length_cons]
      omega
    next => cases h

theorem expandCommand_of_spelled {lens : Option (List Word)} {axes : Option (List Int)} (h : Spelled lens axes) (i : Instr) :
    expandCommand i lens axes = some (descriptorWrites lens axes ++ [.writeReg .cmd (encode i)]) := by
  obtain ⟨hr, hax, hln⟩ := h
  rw [expandCommand, axisWrites_eq_some hr (by omega), lenWrites_eq_some (by omega)]
  rfl

theorem expandCommand_of_not_spelled {lens : Option (List Word)} {axes : Option (List Int)} (h : ¬Spelled lens axes)
    (i : Instr) : expandCommand i lens axes = none := by
  unfold expandCommand
  split
  next aw lw ha hl =>
    obtain ⟨hr, hax⟩ := spelled_of_axisWrites_eq_some (Nat.zero_le 8) ha
    have hln := length_le_of_lenWrites_eq_some (Nat.zero_le 8) hl
    exact absurd ⟨hr, by omega, by omega⟩ h
  next => rfl

section
variable {d s : Fin 4} {t : Option (BitVec 4)} {lens : Option (List Word)} {axes : Option (List Int)} {o : Bool}

/-- The counts a statement assembles are legal for the list commands, because lists of up to eight entries fit the count
fields and an omitted list has none. -/
theorem assembleFields_countIllegal (h : Spelled lens axes) : (assembleFields d s t lens axes o).countIllegal = none := by
  obtain ⟨-, hax, hln⟩ := h
  rw [Fields.countIllegal_eq_none_iff]
  simp only [assembleFields, BitVec.toNat_ofNat]
  refine ⟨fun hn => ?_, fun hn => ?_, by omega, by omega⟩
  · cases axes with
    | none => rfl
    | some as => cases hn
  · cases lens with
    | none => rfl
    | some ns => cases hn

/-- The counts of a statement with one axis and one length, each optional, are legal for `DCT` and `IDCT`. -/
theorem assembleFields_countIllegal1 {n : Option Word} {a : Option Int}
    (h : Spelled (n.map fun l => [l]) (a.map fun x => [x])) :
    (assembleFields d s t (n.map fun l => [l]) (a.map fun x => [x]) o).countIllegal1 = none := by
  rw [Fields.countIllegal1_eq_none_iff]
  refine ⟨assembleFields_countIllegal h, ?_, ?_⟩
  · cases a <;> simp [assembleFields]
  · cases n <;> simp [assembleFields]

end

/-- Settles O5: the descriptor writes by recursion on the lists, and the word by the round trip of a legal command. -/
theorem statementsAssemble : Obligations.StatementsAssemble := by
  intro d s t o lens axes f spelled writes
  refine ⟨fun hs hne => ?_, fun hn => ?_, ?_⟩
  · have hwf : f.countIllegal.isNone = true := Option.isNone_iff_eq_none.2 (assembleFields_countIllegal hs)
    exact ⟨(if_neg hne).trans (expandCommand_of_spelled hs _), (if_neg hne).trans (expandCommand_of_spelled hs _),
      decode_encode (i := .dctn f) hwf, decode_encode (i := .idctn f) hwf⟩
  · have hnone : ∀ i, (if lens = some [] then none else expandCommand i lens axes) = none := fun i =>
      ite_eq_left_iff.2 fun hne => expandCommand_of_not_spelled (hn.resolve_right hne) i
    exact ⟨hnone _, hnone _⟩
  · rintro n a rfl rfl hs
    have hwf : f.countIllegal1.isNone = true := Option.isNone_iff_eq_none.2 (assembleFields_countIllegal1 hs)
    exact ⟨expandCommand_of_spelled hs _, expandCommand_of_spelled hs _,
      decode_encode (i := .dct f) hwf, decode_encode (i := .idct f) hwf⟩

end Sys2Proof.Machine
end

section
/-! PROOFS. The unit `sample_interleaver` (spec/40_sample_interleaver.md): `ILV` and `DILV` only move elements along their line,
so what they do to an array follows from where on the line each position takes its element from. -/

namespace Sys2Proof.Machine

/-! ### Line functions that only move elements (rule R106) -/

/-- `f` only moves elements: position `k` of a line of `N` takes the element at position `σ N k`. -/
structure MovesLine {α : Type} (f : (N : Nat) → (Fin N → α) → Fin N → α) (σ : Nat → Nat → Nat) : Prop where
  source_lt : ∀ {N k : Nat}, k < N → σ N k < N
  apply_eq : ∀ (N : Nat) (x : Fin N → α) (k : Fin N), f N x k = x ⟨σ N k, source_lt k.isLt⟩

section
variable {α : Type} {f g : (N : Nat) → (Fin N → α) → Fin N → α} {σ τ : Nat → Nat → Nat} {x : TArray α}

/-- Along an axis each element comes from its source on its own line. -/
theorem MovesLine.at_along (hf : MovesLine f σ) (z : α) {a : Nat} {i : List Nat} (hi : inBounds x.shape i = true)
    (ha : a < x.shape.length) :
    (along z a f x).at z i = x.at z (i.set a (σ (x.shape.getD a 0) (i.getD a 0))) := by
  rw [Machine.at_along z f hi ha, hf.apply_eq]

/-- The source of a multi-index is a multi-index of the shape. -/
theorem MovesLine.inBounds_source (hf : MovesLine f σ) {sh i : List Nat} {a : Nat} (hi : inBounds sh i = true)
    (ha : a < sh.length) : inBounds sh (i.set a (σ (sh.getD a 0) (i.getD a 0))) = true :=
  inBounds_set hi (hf.source_lt (inBounds_getD hi ha))

/-- Moving from `τ` after moving from `σ` restores the line when `σ` undoes `τ`. -/
theorem MovesLine.cancel (hf : MovesLine f σ) (hg : MovesLine g τ) (h : ∀ {N k : Nat}, k < N → σ N (τ N k) = k)
    (N : Nat) (x : Fin N → α) : g N (f N x) = x := by
  funext k
  rw [hg.apply_eq, hf.apply_eq]
  exact congrArg x (Fin.ext (h k.isLt))

end

/-- A coordinate replaced by itself leaves the multi-index as it is. -/
theorem set_getD_self {i : List Nat} {a : Nat} (ha : a < i.length) : i.set a (i.getD a 0) = i := by
  rw [List.getD_eq_getElem _ _ ha, List.set_getElem_self]

/-- A coordinate of another axis is not replaced. -/
theorem getD_set_of_ne {p q : Nat} (hpq : p ≠ q) (i : List Nat) (k : Nat) : (i.set p k).getD q 0 = i.getD q 0 := by
  simp only [List.getD_eq_getElem?_getD, List.getElem?_set_ne hpq]

/-- Leaving every line as it is leaves a full array as it is. -/
theorem along_id {α : Type} (z : α) {a : Nat} {x : TArray α} (ha : a < x.shape.length)
    (hfull : x.data.length = shapeSize x.shape) : along z a (fun _ l => l) x = x := by
  refine TArray.ext_at z rfl (along_length z a _ x) hfull fun i hi => ?_
  rw [at_along z _ hi ha]
  exact congrArg (x.at z) (set_getD_self (by rwa [inBounds_length hi]))

/-- Line functions that undo each other on every line undo each other along an axis. -/
theorem along_along_cancel {α : Type} (z : α) {a : Nat} {f g : (N : Nat) → (Fin N → α) → Fin N → α} {x : TArray α}
    (h : ∀ N (l : Fin N → α), g N (f N l) = l) (ha : a < x.shape.length) (hfull : x.data.length = shapeSize x.shape) :
    along z a g (along z a f x) = x :=
  calc along z a g (along z a f x)
    _ = along z a (fun N l => g N (f N l)) x := along_along z f g ha
    _ = along z a (fun _ l => l) x := along_congr z a (fun N l k => congrFun (h N l) k) x
    _ = x := along_id z ha hfull

/-- Movements along two different axes commute: each replaces its own coordinate of the multi-index. -/
theorem MovesLine.along_comm {α : Type} {f g : (N : Nat) → (Fin N → α) → Fin N → α} {σ τ : Nat → Nat → Nat}
    (hf : MovesLine f σ) (hg : MovesLine g τ) (z : α) {p q : Nat} {x : TArray α} (hp : p < x.shape.length)
    (hq : q < x.shape.length) (hpq : p ≠ q) : along z p f (along z q g x) = along z q g (along z p f x) := by
  refine TArray.ext_at z rfl (along_length z p f _) (along_length z q g _) fun i (hi : inBounds x.shape i = true) => ?_
  have hfg : (along z p f (along z q g x)).at z i =
      x.at z ((i.set p (σ (x.shape.getD p 0) (i.getD p 0))).set q (τ (x.shape.getD q 0) (i.getD q 0))) := by
    rw [hf.at_along (x := along z q g x) z hi hp, along_shape, hg.at_along z (hf.inBounds_source hi hp) hq,
      getD_set_of_ne hpq]
  have hgf : (along z q g (along z p f x)).at z i =
      x.at z ((i.set q (τ (x.shape.getD q 0) (i.getD q 0))).set p (σ (x.shape.getD p 0) (i.getD p 0))) := by
    rw [hg.at_along (x := along z p f x) z hi hq, along_shape, hf.at_along z (hg.inBounds_source hi hq) hp,
      getD_set_of_ne hpq.symm]
  rw [hfg, hgf, List.set_comm _ _ hpq]

/-! ### `ILV` and `DILV` on a line (rules R100, R103) -/

/-- The first `ceil_half(N)` positions of `ILV` take the elements at the even positions, in order. -/
theorem ilv_of_lt {α : Type} {N : Nat} (x : Fin N → α) {j : Fin N} (h : j.val < (N + 1) / 2) :
    ilv N x j = x ⟨2 * j.val, by omega⟩ :=
  dif_pos h

/-- The other positions of `ILV` take the elements at the odd positions, from the last one down. -/
theorem ilv_of_le {α : Type} {N : Nat} (x : Fin N → α) {j : Fin N} (h : (N + 1) / 2 ≤ j.val) :
    ilv N x j = x ⟨2 * (N - 1 - j.val) + 1, by omega⟩ :=
  dif_neg (Nat.not_lt.2 h)

theorem dilv_even {α : Type} {N : Nat} (y : Fin N → α) {j : Nat} (h : 2 * j < N) :
    dilv N y ⟨2 * j, h⟩ = y ⟨j, by omega⟩ := by
  have heven : 2 * j % 2 = 0 := by omega
  simp only [dilv, if_pos heven]
  congr 2
  omega

theorem dilv_odd {α : Type} {N : Nat} (y : Fin N → α) {m : Nat} (h : 2 * m + 1 < N) :
    dilv N y ⟨2 * m + 1, h⟩ = y ⟨N - 1 - m, by omega⟩ := by
  have hodd : ¬(2 * m + 1) % 2 = 0 := by omega
  simp only [dilv, if_neg hodd]
  congr 2
  omega

/-- `ILV` of a line as a list: below `ceil_half(N)` the entry is one of the even-position part, and from there on one of the
reversed odd-position part. -/
theorem ofFn_ilv {α : Type} (N : Nat) (x : Fin N → α) :
    List.ofFn (ilv N x) =
      List.ofFn (fun j : Fin ((N + 1) / 2) => x ⟨2 * j.val, by omega⟩) ++
        (List.ofFn fun j : Fin (N / 2) => x ⟨2 * j.val + 1, by omega⟩).reverse := by
  refine List.ext_getElem (by simp; omega) fun k hk hk' => ?_
  have hkN : k < N := by simpa using hk
  rcases Nat.lt_or_ge k ((N + 1) / 2) with h | h
  · rw [List.getElem_append_left (by simpa using h), List.getElem_ofFn, List.getElem_ofFn]
    exact ilv_of_lt x h
  · rw [List.getElem_append_right (by simpa using h), List.getElem_reverse, List.getElem_ofFn, List.getElem_ofFn,
      ilv_of_le x h]
    simp only [List.length_ofFn]
    congr 2
    omega

/-! ### Where `ILV` and `DILV` take each element from -/

/-- The position of the line that `ILV` puts at position `k`. -/
def ilvSource (N k : Nat) : Nat := if k < (N + 1) / 2 then 2 * k else 2 * (N - 1 - k) + 1

/-- The position of the line that `DILV` puts at position `k`. -/
def dilvSource (N k : Nat) : Nat := if k % 2 = 0 then k / 2 else N - 1 - k / 2

theorem dilvSource_even (N j : Nat) : dilvSource N (2 * j) = j := by
  rw [dilvSource, if_pos (by omega)]
  omega

theorem dilvSource_odd (N m : Nat) : dilvSource N (2 * m + 1) = N - 1 - m := by
  rw [dilvSource, if_neg (by omega)]
  omega

theorem ilvSource_lt {N k : Nat} (h : k < N) : ilvSource N k < N := by
  unfold ilvSource
  split <;> omega

theorem dilvSource_lt {N k : Nat} (h : k < N) : dilvSource N k < N := by
  unfold dilvSource
  split <;> omega

theorem ilvSource_dilvSource {N k : Nat} (h : k < N) : ilvSource N (dilvSource N k) = k := by
  obtain ⟨j, rfl | rfl⟩ := Nat.even_or_odd' k
  · rw [dilvSource_even, ilvSource, if_pos (by omega)]
  · rw [dilvSource_odd, ilvSource, if_neg (by omega)]
    omega

theorem dilvSource_ilvSource {N k : Nat} (h : k < N) : dilvSource N (ilvSource N k) = k := by
  rcases Nat.lt_or_ge k ((N + 1) / 2) with hhead | htail
  · rw [ilvSource, if_pos hhead, dilvSource_even]
  · rw [ilvSource, if_neg (by omega), dilvSource_odd]
    omega

theorem ilv_movesLine (α : Type) : MovesLine (α := α) ilv ilvSource where
  source_lt := ilvSource_lt
  apply_eq N x k := by
    rcases Nat.lt_or_ge k.val ((N + 1) / 2) with h | h
    · simp only [ilv_of_lt x h, ilvSource, if_pos h]
    · simp only [ilv_of_le x h, ilvSource, if_neg (Nat.not_lt.2 h)]

theorem dilv_movesLine (α : Type) : MovesLine (α := α) dilv dilvSource where
  source_lt := dilvSource_lt
  apply_eq N y := by
    rintro ⟨k, hk⟩
    obtain ⟨j, rfl | rfl⟩ := Nat.even_or_odd' k
    · simp only [dilv_even, dilvSource_even]
    · simp only [dilv_odd, dilvSource_odd]

theorem dilv_ilv {α : Type} (N : Nat) (x : Fin N → α) : dilv N (ilv N x) = x :=
  (ilv_movesLine α).cancel (dilv_movesLine α) ilvSource_dilvSource N x

theorem ilv_dilv {α : Type} (N : Nat) (y : Fin N → α) : ilv N (dilv N y) = y :=
  (dilv_movesLine α).cancel (ilv_movesLine α) dilvSource_ilvSource N y

/-! ### The laws of the unit (rules R101, R104, R105, R107) -/

/-- Settles O40: `ILV` of a line entry by entry, and on an array the source of each position. -/
theorem interleaveIsEvenThenOddReversed : Obligations.InterleaveIsEvenThenOddReversed :=
  ⟨fun _ => ofFn_ilv, fun α z _ _ => ⟨rfl, fun _ hi ha => (ilv_movesLine α).at_along z hi ha⟩⟩

/-- Settles O41: `DILV` of a line by parity, and on an array the source of each position. -/
theorem deinterleaveScatters : Obligations.DeinterleaveScatters :=
  ⟨fun _ _ y => ⟨fun _ => dilv_even y, fun _ => dilv_odd y⟩,
    fun α z _ _ => ⟨rfl, fun _ hi ha => (dilv_movesLine α).at_along z hi ha⟩⟩

/-- Settles O42: the two undo each other on every line. -/
theorem interleaveInverse : Obligations.InterleaveInverse :=
  fun _ z _ _ ha hfull => ⟨along_along_cancel z dilv_ilv ha hfull, along_along_cancel z ilv_dilv ha hfull⟩

/-- Settles O43: `ILV` only moves elements, and movements along two different axes commute. -/
theorem interleavesCommute : Obligations.InterleavesCommute :=
  fun α z _ _ _ hp hq hpq => (ilv_movesLine α).along_comm (ilv_movesLine α) z hp hq hpq

end Sys2Proof.Machine
end

section
/-! PROOFS. The unit `twiddle_factor_generator` (spec/41_twiddle_factor_generator.md) in the ideal numerics: the twiddle factor lies
on the unit circle and negating its index conjugates it, so that division by it is a multiplication. -/

namespace Sys2Proof.Machine

/-- The defining formula of rule R120, in the spec's own form of the exponent. -/
theorem toComplex_W_eq_exp (N : Nat) (k : Int) :
    toComplex (W ideal N k) = Complex.exp (-Complex.I * Real.pi * k / (2 * N)) := by
  rw [toComplex_W]
  congr 1; push_cast; ring

/-- Negating the index conjugates the twiddle factor (rule R122). -/
theorem W_neg (N : Nat) (k : Int) : W ideal N (-k) = Cx.conj ideal (W ideal N k) := by
  apply toComplex_inj
  rw [toComplex_conj, toComplex_W, toComplex_W, ← Complex.exp_conj, map_mul, Complex.conj_ofReal, Complex.conj_I]
  congr 1; push_cast; ring

theorem normSq_toComplex_W (N : Nat) (k : Int) : Complex.normSq (toComplex (W ideal N k)) = 1 := by
  rw [toComplex_W, Complex.normSq_eq_norm_sq, Complex.norm_exp_ofReal_mul_I, one_pow]

/-- The division law of rule R123: a number of modulus 1 has its conjugate as inverse. -/
theorem div_W (N : Nat) (k : Int) (z : Cx ℝ) : Cx.div ideal z (W ideal N k) = Cx.mul ideal z (W ideal N (-k)) := by
  have hinv : (toComplex (W ideal N k))⁻¹ = toComplex (W ideal N (-k)) := by
    rw [Complex.inv_def, normSq_toComplex_W, W_neg, toComplex_conj]; simp
  apply toComplex_inj
  rw [toComplex_div, toComplex_mul, div_eq_mul_inv, hinv]

/-- Settles O48: the formula, the conjugate and the division law, with the squared modulus in the pair's own components. -/
theorem twiddleLaws : Obligations.TwiddleLaws := fun N k z _ =>
  ⟨toComplex_W_eq_exp N k, W_neg N k,
    by simpa [Complex.normSq_apply, sq] using normSq_toComplex_W N k, div_W N k z⟩

end Sys2Proof.Machine
end

section
/-! PROOFS. The unit `dct2_1d_engine` (spec/42_dct2_1d_engine.md), its operands and its commands: the canonical axis (rule R130),
shape adaptation (rules R131, R132), and when a command along one axis has a result (rules R137, R139). -/

namespace Sys2Proof.Machine

/-! ### The canonical axis (rule R130) -/

theorem canon_of_nonneg {a : Int} {r : Nat} (h0 : 0 ≤ a) (hr : a ≤ (r : Int) - 1) : canon a r = some a.toNat :=
  if_pos ⟨h0, hr⟩

theorem canon_of_neg {a : Int} {r : Nat} (hr : -(r : Int) ≤ a) (h0 : a ≤ -1) : canon a r = some ((r : Int) + a).toNat := by
  rw [canon, if_neg (by omega), if_pos ⟨hr, h0⟩]

theorem canon_of_outside {a : Int} {r : Nat} (h : a < -(r : Int) ∨ (r : Int) ≤ a) : canon a r = none := by
  rw [canon, if_neg (by omega), if_neg (by omega)]

/-- The source's property that axis `-1` is the last axis. -/
theorem canon_neg_one {r : Nat} (hr : 1 ≤ r) : canon (-1) r = canon ((r : Int) - 1) r := by
  rw [canon_of_neg (by omega) le_rfl, canon_of_nonneg (by omega) le_rfl]
  congr 2

/-- A command along one axis sees its raw axis only through the canonical one. -/
theorem command1_congr_canon {α : Type} (p : Params α) (legal : Bool) (kernel : Norm → Nat → TArray α → TArray α)
    {f : Fields} {axis axis' : Vector Word 8} (len : Vector Word 8) {x : TArray α}
    (h : canon (axisRaw1 f axis) x.shape.length = canon (axisRaw1 f axis') x.shape.length) :
    command1 p legal kernel f axis len (.array x) = command1 p legal kernel f axis' len (.array x) := by
  simp only [command1, checkSource, check1, h]

/-- A raw axis given in `AXIS0` is the register read as signed (rule R75). -/
theorem axisRaw1_set {f : Fields} (hag : f.ag = true) (axis : Vector Word 8) (v : Word) :
    axisRaw1 f (axis.set 0 v) = v.toInt := by
  simp [axisRaw1, hag, axisValue]

/-- Settles O39: the three ranges of a raw axis, and the last axis under its two names in `AXIS0`. -/
theorem canonClauses : Obligations.CanonClauses := by
  refine ⟨fun a r _ => ⟨canon_of_nonneg, canon_of_neg, canon_of_outside⟩, by decide, fun p f axis len x h1 h8 hag => ?_⟩
  have hlast : (BitVec.ofNat 32 (x.shape.length - 1)).toInt = (x.shape.length : Int) - 1 := by
    rw [BitVec.toInt_eq_toNat_cond, BitVec.toNat_ofNat]
    omega
  refine command1_congr_canon p _ _ len ?_
  rw [axisRaw1_set hag, axisRaw1_set hag, hlast]
  exact canon_neg_one h1

/-! ### Shape adaptation (rules R131, R132) -/

/-- Outside its multi-indices an array reads as the value given for it. -/
theorem TArray.at_of_not_inBounds {α : Type} (z : α) {x : TArray α} {i : List Nat} (h : ¬inBounds x.shape i = true) :
    x.at z i = z :=
  if_neg h

/-- An extent that was set reads back, on an axis of the shape. -/
theorem getD_set_self {sh : List Nat} {a : Nat} (ha : a < sh.length) (n : Nat) : (sh.set a n).getD a 0 = n := by
  simp [ha]

/-- A multi-index stays one when the extent of an axis is replaced by one that its coordinate is below. -/
theorem inBounds_set_extent {sh i : List Nat} {a n : Nat} (h : inBounds sh i = true) (hn : i.getD a 0 < n) :
    inBounds (sh.set a n) i = true := by
  obtain ⟨hlen, hlt⟩ := (inBounds_iff sh i).1 h
  refine (inBounds_iff _ i).2 ⟨by rwa [List.length_set], fun b hb => ?_⟩
  rw [List.length_set] at hb
  by_cases hab : a = b
  · subst hab
    rwa [getD_set_self hb]
  · rw [getD_set_of_ne hab]
    exact hlt b hb

/-- A multi-index of the adapted shape below the old extent of the axis is one of the array. -/
theorem inBounds_of_set_extent {sh i : List Nat} {a n : Nat} (ha : a < sh.length) (h : inBounds (sh.set a n) i = true)
    (hold : i.getD a 0 < sh.getD a 0) : inBounds sh i = true := by
  have h' := inBounds_set_extent h hold
  rwa [List.set_set, set_getD_self ha] at h'

/-- Refitted to a shape, an array reads as before at the multi-indices of the shape. -/
theorem at_refit {α : Type} (num : Numerics α) (x : TArray α) {sh i : List Nat} (h : inBounds sh i = true) :
    (refit num x sh).at num.zero i = x.at num.zero i :=
  TArray.at_build num.zero _ h

/-- Settles O45: adaptation reads the array where it has an element, and the pad value elsewhere. -/
theorem adaptPadsAndTruncates : Obligations.AdaptPadsAndTruncates := by
  refine fun α num x a n ha hfull => ⟨rfl, fun i hi => ⟨fun _ => at_refit num x hi, fun hge => ?_⟩, ?_⟩
  · rw [adapt, at_refit num x hi]
    exact TArray.at_of_not_inBounds _ fun h => absurd (inBounds_getD h ha) (by omega)
  · rintro rfl
    exact adapt_self num hfull

/-- The extent of an axis that is not listed is kept. -/
theorem getD_setExtents_of_notMem {a : Nat} : ∀ {sh axes lens : List Nat}, a ∉ axes →
    (setExtents sh axes lens).getD a 0 = sh.getD a 0
  | sh, [], lens, _ => by cases lens <;> rfl
  | sh, _ :: _, [], _ => rfl
  | sh, b :: axes, n :: lens, h => by
    obtain ⟨hne, hmem⟩ := List.ne_and_not_mem_of_not_mem_cons h
    rw [setExtents, getD_setExtents_of_notMem hmem, getD_set_of_ne (Ne.symm hne)]

/-- The combined adaptation adapts the first listed axis, then the others: an element that the first adaptation drops is not
one of the result, which has the listed extent on that axis (rule R132). -/
theorem adaptN_cons {α : Type} (num : Numerics α) {x : TArray α} {a : Nat} {axes : List Nat} (n : Nat) (lens : List Nat)
    (ha : a < x.shape.length) (hmem : a ∉ axes) :
    adaptN num x (a :: axes) (n :: lens) = adaptN num (adapt num x a n) axes lens := by
  refine TArray.build_congr fun i hi => ?_
  have hlt : i.getD a 0 < n := by
    have h := inBounds_getD hi (by simpa [setExtents] using ha)
    rwa [setExtents, getD_setExtents_of_notMem hmem, getD_set_self ha] at h
  by_cases hold : inBounds x.shape i = true
  · exact (at_refit num x (inBounds_set_extent hold hlt)).symm
  · have hnew : x.at num.zero i = num.zero := TArray.at_of_not_inBounds _ hold
    by_cases hmid : inBounds (x.shape.set a n) i = true
    · exact (at_refit num x hmid).symm
    · exact hnew.trans (TArray.at_of_not_inBounds _ hmid).symm

/-- Settles O46: by induction on the list of axes, each adaptation keeping the array full and its rank. -/
theorem adaptAllIsAdaptEach : Obligations.AdaptAllIsAdaptEach := by
  intro α num x axes lens hfull hnodup hlt hlen
  induction axes generalizing x lens with
  | nil =>
    obtain rfl := List.length_eq_zero_iff.1 hlen.symm
    exact refit_self num hfull
  | cons a axes ih =>
    obtain ⟨n, lens, rfl⟩ := List.exists_cons_of_length_eq_add_one hlen.symm
    obtain ⟨hmem, hnodup⟩ := List.nodup_cons.1 hnodup
    rw [adaptN_cons num n lens (hlt a List.mem_cons_self) hmem]
    exact ih (adapt num x a n) lens (TArray.build_length _ _) hnodup
      (fun b hb => by simpa using hlt b (List.mem_cons_of_mem a hb)) (by simpa using hlen)

/-! ### When a command along one axis has a result (rules R137, R229) -/

/-- A legal word of type 2 with a recognised `NORM` passes the checks of the word. -/
theorem checkWord_eq_ok {f : Fields} {nm : Norm} (ht : f.type = 2#4) (hnm : NormGiven f nm) : checkWord true f = .ok nm := by
  rw [checkWord, if_neg (by decide), if_neg (not_not.2 ht)]
  obtain ⟨hn, rfl⟩ | ⟨hn, rfl⟩ := hnm <;> rw [hn] <;> rfl

/-- The shape checks of `DCT` and `IDCT` pass exactly when the axis, the target length and the capacity are in order. -/
theorem check1_eq_ok_iff {m : Option Nat} {f : Fields} {axis len : Vector Word 8} {sh : List Nat} {a n : Nat} :
    check1 m f axis len sh = .ok (a, n) ↔ canon (axisRaw1 f axis) sh.length = some a ∧ n = targetLen f len sh a ∧
      (f.lg = true → n ≠ 0) ∧ fits m (shapeSize (sh.set a n)) = true := by
  refine ⟨check1_ok, ?_⟩
  rintro ⟨hc, rfl, h0, hfit⟩
  simp only [check1, hc]
  rw [if_neg fun ⟨hl, hz⟩ => h0 hl hz, if_neg (by simp [hfit])]

/-- A command along one axis has a result exactly when every check passes, and then the kernel's on the adapted array. -/
theorem command1_eq_ok_iff {α : Type} {p : Params α} {legal : Bool} {kernel : Norm → Nat → TArray α → TArray α} {f : Fields}
    {axis len : Vector Word 8} {x y : TArray α} : command1 p legal kernel f axis len (.array x) = .ok y ↔
      ∃ nm a n, checkWord legal f = .ok nm ∧ check1 p.maxElems f axis len x.shape = .ok (a, n) ∧
        y = kernel nm a (adapt p.num x a n) := by
  simp only [command1, checkSource]
  constructor
  · intro h
    split at h
    · cases h
    · split at h
      · cases h
      · rename_i nm hw _ a n hc
        cases h
        exact ⟨nm, a, n, hw, hc, rfl⟩
  · rintro ⟨nm, a, n, hw, hc, rfl⟩
    simp only [hw, hc]

/-- Without a target length a command along one axis transforms a full source as it is (log entry 20). -/
theorem command1_eq_ok_iff_of_no_length {α : Type} {p : Params α} {legal : Bool}
    {kernel : Norm → Nat → TArray α → TArray α} {f : Fields} {axis len : Vector Word 8} {x y : TArray α}
    (hlg : f.lg = false) (hfull : x.data.length = shapeSize x.shape) :
    command1 p legal kernel f axis len (.array x) = .ok y ↔ ∃ nm a, checkWord legal f = .ok nm ∧
      check1 p.maxElems f axis len x.shape = .ok (a, x.shape.getD a 0) ∧ y = kernel nm a x := by
  rw [command1_eq_ok_iff]
  constructor
  · rintro ⟨nm, a, n, hw, hc, rfl⟩
    obtain ⟨-, hn, -⟩ := check1_ok hc
    obtain rfl : n = x.shape.getD a 0 := hn.trans (if_neg (by simp [hlg]))
    exact ⟨nm, a, hw, hc, by rw [adapt_self p.num hfull]⟩
  · rintro ⟨nm, a, hw, hc, rfl⟩
    exact ⟨nm, a, _, hw, hc, by rw [adapt_self p.num hfull]⟩

/-- Settles O17: every check passes, so the command completes with the kernel's result. -/
theorem dctCompletes : Obligations.DctCompletes := by
  intro f s x nm a n hwf ht hnm hsrc hcanon hn h0 hfit
  have hw : checkWord (Instr.dct f).wf f = .ok nm := by rw [hwf]; exact checkWord_eq_ok ht hnm
  have hc : check1 Config.maxElems f s.axis s.len x.shape = .ok (a, n) := check1_eq_ok_iff.2 ⟨hcanon, hn, h0, hfit⟩
  have hres : commandResult Config.params (.dct f) s.axis s.len (s.readA f.rs) =
      .ok (fwd1 Config.num nm a (adapt Config.num x a n)) := by
    rw [Engine.readA, hsrc]
    exact command1_eq_ok_iff.2 ⟨nm, a, n, hw, hc, rfl⟩
  rw [exec_eq, Instr.fields, hres]
  rfl

/-! ### A target length is an adaptation before the command (rule R139) -/

/-- A word that passes its checks is legal. -/
theorem legal_of_checkWord_eq_ok {legal : Bool} {f : Fields} {nm : Norm} (h : checkWord legal f = .ok nm) : legal = true := by
  cases legal with
  | true => rfl
  | false => cases h

/-- A legal `DCT` without its length list is legal. -/
theorem dct_wf_without_length {f : Fields} (h : (Instr.dct f).wf = true) :
    (Instr.dct { f with lg := false, nlen := 0#4 }).wf = true := by
  rw [Instr.wf_iff] at h ⊢
  obtain ⟨⟨hax, -, hnax, -⟩, hone⟩ := h
  exact ⟨⟨hax, fun _ => rfl, hnax, Nat.zero_le 8⟩, fun ho => ⟨(hone ho).1, nofun⟩⟩

/-- Settles O31: the adapted array passes the same checks, and adapting it to its own extent changes nothing. -/
theorem padThenTransform : Obligations.PadThenTransform := by
  intro p f axis len x y a hlg hcanon h
  obtain ⟨nm, a', n, hw, hc, rfl⟩ := command1_eq_ok_iff.1 h
  obtain ⟨hcanon', hn, -, hfit⟩ := check1_ok hc
  obtain rfl : a = a' := Option.some.inj (hcanon.symm.trans hcanon')
  have hlen : len[0].toNat = n := (hn.trans (if_pos hlg)).symm
  have hwf := legal_of_checkWord_eq_ok hw
  have hext : (x.shape.set a n).getD a 0 = n := getD_set_self (canon_lt hcanon) _
  rw [hlen]
  refine command1_eq_ok_iff.2 ⟨nm, a, n, ?_, check1_eq_ok_iff.2 ⟨?_, ?_, nofun, ?_⟩, ?_⟩
  · rw [hwf] at hw
    rw [dct_wf_without_length hwf]
    exact hw
  · rw [adapt_shape, List.length_set]
    exact hcanon
  · exact hext.symm
  · rwa [adapt_shape, List.set_set]
  · have hself := adapt_self p.num (x := adapt p.num x a n) (TArray.build_length _ _) (a := a)
    rw [adapt_shape, hext] at hself
    rw [hself]

end Sys2Proof.Machine
end

section
/-! PROOFS. The 1-D kernels in the ideal numerics (spec/42_dct2_1d_engine.md rules R135, R138, R140, R142, and
spec/43_idct2_1d_engine.md rules R152, R155, R156): the staged kernels are cosine sums, and the inverse kernel undoes the forward
one because the cosines are orthogonal. -/

namespace Sys2Proof.Machine

/-! ### The forward kernel (rules R135, R140) -/

/-- The interleave as a permutation of the positions of a line. -/
def ilvEquiv (N : Nat) : Fin N ≃ Fin N where
  toFun j := ⟨ilvSource N j.val, ilvSource_lt j.isLt⟩
  invFun n := ⟨dilvSource N n.val, dilvSource_lt n.isLt⟩
  left_inv j := Fin.ext (dilvSource_ilvSource j.isLt)
  right_inv n := Fin.ext (ilvSource_dilvSource n.isLt)

theorem ilv_apply {α : Type} (N : Nat) (x : Fin N → α) (j : Fin N) : ilv N x j = x (ilvEquiv N j) :=
  (ilv_movesLine α).apply_eq N x j

/-- The cosine of rule R135 that weighs input `n` in output `k`. -/
noncomputable def dctCos (N k n : Nat) : ℝ := Real.cos (Real.pi * k * (2 * n + 1) / (2 * N))

/-- The phase the FFT and the twiddle factor give to position `j` is that of the input the interleave puts there: an odd
position is reached by the reflection of the angle at `pi · k`. -/
theorem cos_phase_eq_dctCos {N : Nat} (k : Nat) (j : Fin N) :
    Real.cos (Real.pi * k * (4 * j.val + 1) / (2 * N)) = dctCos N k (ilvEquiv N j).val := by
  have hj := j.isLt
  have hN : (N : ℝ) ≠ 0 := by exact_mod_cast (show N ≠ 0 by omega)
  change _ = dctCos N k (ilvSource N j.val)
  rcases Nat.lt_or_ge j.val ((N + 1) / 2) with h | h
  · rw [ilvSource, if_pos h, dctCos]
    congr 3
    push_cast
    ring
  · rw [ilvSource, if_neg (by omega), dctCos, ← Real.cos_nat_mul_two_pi_sub _ k]
    congr 1
    have hcast : ((2 * (N - 1 - j.val) + 1 : Nat) : ℝ) = 2 * (N - 1 - j.val) + 1 := by
      push_cast [Nat.cast_sub (show j.val ≤ N - 1 by omega), Nat.cast_sub (show 1 ≤ N by omega)]
      ring
    push_cast at hcast ⊢
    rw [hcast]
    field_simp
    ring

/-- Position `k` after the FFT and the twiddle multiplication has the real part that rule R135 sums. -/
theorem twiddleMul_fft_re (N : Nat) (v : Fin N → ℝ) (k : Fin N) :
    (twiddleMul ideal N (ideal.fft N fun j => promote ideal (v j)) k).re =
      ∑ j : Fin N, v j * dctCos N k.val (ilvEquiv N j).val := by
  rw [← toComplex_re, twiddleMul, toComplex_mul, toComplex_fft, toComplex_W, Finset.sum_mul, Complex.re_sum]
  refine Finset.sum_congr rfl fun j _ => ?_
  have hN : (N : ℝ) ≠ 0 := by exact_mod_cast k.pos.ne'
  rw [toComplex_promote, mul_assoc, ← Complex.exp_add, ← add_mul, ← Complex.ofReal_add, Complex.re_ofReal_mul,
    Complex.exp_ofReal_mul_I_re, ← Real.cos_neg, ← cos_phase_eq_dctCos]
  congr 2
  push_cast
  field_simp
  ring

/-- The forward kernel on a line is the unnormalised DCT-II (rule R135). -/
theorem dct1_eq_sum (N : Nat) (x : Fin N → ℝ) (k : Fin N) :
    dct1 ideal N x k = 2 * ∑ n : Fin N, x n * dctCos N k.val n.val :=
  calc dct1 ideal N x k
    _ = 2 * ∑ j : Fin N, ilv N x j * dctCos N k.val (ilvEquiv N j).val :=
      congrArg (2 * ·) (twiddleMul_fft_re N (ilv N x) k)
    _ = 2 * ∑ j : Fin N, x (ilvEquiv N j) * dctCos N k.val (ilvEquiv N j).val := by simp only [ilv_apply]
    _ = 2 * ∑ n : Fin N, x n * dctCos N k.val n.val :=
      congrArg (2 * ·) (Equiv.sum_comp (ilvEquiv N) fun n => x n * dctCos N k.val n.val)

/-- Settles O51: on an array, the sum of the line through each multi-index. -/
theorem dctClosedForm : Obligations.DctClosedForm :=
  ⟨dct1_eq_sum, fun _ _ => ⟨rfl, fun _ hi ha => (at_along (0 : ℝ) (dct1 ideal) hi ha).trans (dct1_eq_sum _ _ _)⟩⟩

/-- The cosines of a line are symmetric under reversal in even outputs and antisymmetric in odd ones. -/
theorem dctCos_reflect {N m n : Nat} (h : m + n + 1 = N) (k : Nat) : dctCos N k m = (-1) ^ k * dctCos N k n := by
  have hN : (N : ℝ) = m + n + 1 := by exact_mod_cast h.symm
  have hN0 : (m : ℝ) + n + 1 ≠ 0 := by positivity
  rw [dctCos, dctCos, ← Real.cos_nat_mul_pi_sub, hN]
  congr 1
  field_simp
  ring

/-- On a line of four the reflection leaves two cosines in each output. -/
theorem dct1_four (x : Fin 4 → ℝ) {k : Nat} (hk : k < 4) : dct1 ideal 4 x ⟨k, hk⟩ =
    2 * ((x 0 + (-1) ^ k * x 3) * dctCos 4 k 0 + (x 1 + (-1) ^ k * x 2) * dctCos 4 k 1) := by
  have h2 : dctCos 4 k 2 = (-1) ^ k * dctCos 4 k 1 := dctCos_reflect (m := 2) (n := 1) rfl k
  have h3 : dctCos 4 k 3 = (-1) ^ k * dctCos 4 k 0 := dctCos_reflect (m := 3) (n := 0) rfl k
  have hsum : dct1 ideal 4 x ⟨k, hk⟩ =
      2 * (x 0 * dctCos 4 k 0 + x 1 * dctCos 4 k 1 + x 2 * dctCos 4 k 2 + x 3 * dctCos 4 k 3) := by
    rw [dct1_eq_sum, Fin.sum_univ_four]
    rfl
  rw [hsum, h2, h3]
  ring

theorem dctCos_zero (N n : Nat) : dctCos N 0 n = 1 := by simp [dctCos]

/-- Settles O54: each output is a combination of two cosines, those of `pi / 8` and `3 pi / 8` up to sign in the odd ones. -/
theorem knownSmallCase : Obligations.KnownSmallCase := by
  have hcos10 : dctCos 4 1 0 = Real.cos (Real.pi / 8) := by rw [dctCos]; congr 1; push_cast; ring
  have hcos11 : dctCos 4 1 1 = Real.cos (3 * Real.pi / 8) := by rw [dctCos]; congr 1; push_cast; ring
  have hcos21 : dctCos 4 2 1 = -dctCos 4 2 0 := by
    rw [dctCos, dctCos, ← Real.cos_pi_sub]; congr 1; push_cast; ring
  have hcos30 : dctCos 4 3 0 = Real.cos (3 * Real.pi / 8) := by rw [dctCos]; congr 1; push_cast; ring
  have hcos31 : dctCos 4 3 1 = -Real.cos (Real.pi / 8) := by
    rw [dctCos, ← Real.cos_add_pi]; congr 1; push_cast; ring
  have hline : ∀ {k : Nat} (hk : k < 4), dct1 ideal 4 (fun n => (n.val : ℝ) + 1) ⟨k, hk⟩ =
      2 * ((1 + (-1) ^ k * 4) * dctCos 4 k 0 + (2 + (-1) ^ k * 3) * dctCos 4 k 1) := fun hk => by
    rw [dct1_four]
    norm_num
  unfold Obligations.KnownSmallCase
  simp only [List.ofFn_succ, List.ofFn_zero, List.cons.injEq, and_true]
  refine ⟨(hline _).trans ?_, (hline _).trans ?_, (hline _).trans ?_, (hline _).trans ?_⟩
  · rw [dctCos_zero, dctCos_zero]
    norm_num
  · rw [hcos10, hcos11]
    ring
  · rw [hcos21]
    ring
  · rw [hcos30, hcos31]
    ring

/-! ### Normalisation passes (rules R190, R193) -/

/-- The factor one pass divides position `k` by. -/
noncomputable def nrmScale (N k : Nat) : ℝ := Real.sqrt (if k = 0 then 4 * N else 2 * N)

theorem nrm_eq_div (N : Nat) (y : Fin N → ℝ) (k : Fin N) : nrm ideal N y k = y k / nrmScale N k.val := by
  unfold nrm nrmScale
  split_ifs <;> simp [ideal]

theorem nrmPasses_eq_div (N : Nat) (k : Fin N) : ∀ (P : Nat) (y : Fin N → ℝ),
    nrmPasses ideal N P y k = y k / nrmScale N k.val ^ P
  | 0, y => by simp [nrmPasses]
  | P + 1, y => by rw [nrmPasses, nrmPasses_eq_div N k P, nrm_eq_div, div_div, pow_succ']

theorem nrmScale_sq (N k : Nat) : nrmScale N k ^ 2 = if k = 0 then 4 * (N : ℝ) else 2 * N :=
  Real.sq_sqrt (by split_ifs <;> positivity)

/-! ### The inverse kernel (rule R152) -/

/-- The spectrum that rule R150 hands to the inverse FFT: the scaled line with the twiddle divided out, times `2N`. -/
noncomputable def idctSpectrum (N : Nat) (y : Fin N → ℝ) (k : Fin N) : Cx ℝ :=
  Cx.mul ideal (twiddleDiv ideal N (fun k => promote ideal (y k)) k) (promote ideal (ideal.ofNat (2 * N)))

theorem idct1_eq_dilv (nm : Norm) (N : Nat) (X : Fin N → ℝ) : idct1 ideal nm N X =
    dilv N fun j => (ideal.ifft N (idctSpectrum N (nrmPasses ideal N (passes nm) X)) j).re := rfl

theorem toComplex_idctSpectrum (N : Nat) (y : Fin N → ℝ) (k : Fin N) : toComplex (idctSpectrum N y k) =
    (2 * N * y k : ℝ) * Complex.exp ((Real.pi * k.val / (2 * N) : ℝ) * Complex.I) := by
  have hscale : ideal.ofNat (2 * N) = 2 * (N : ℝ) := by simp [ideal]
  have hangle : -(Real.pi * ((-(k.val : Int) : Int) : ℝ) / (2 * N)) = Real.pi * k.val / (2 * N) := by
    push_cast
    ring
  rw [idctSpectrum, twiddleDiv, div_W, toComplex_mul, toComplex_mul, toComplex_promote, toComplex_promote, toComplex_W,
    hscale, hangle, Complex.ofReal_mul (2 * N)]
  ring

/-- Position `j` of the inverse FFT has the real part that rule R152 sums: the angles of the twiddle and of the inverse FFT
add up. -/
theorem ifft_idctSpectrum_re (N : Nat) (y : Fin N → ℝ) (j : Fin N) : (ideal.ifft N (idctSpectrum N y) j).re =
    2 * ∑ k : Fin N, y k * dctCos N k.val (ilvEquiv N j).val := by
  have hN : (N : ℝ) ≠ 0 := by exact_mod_cast j.pos.ne'
  have hinv : (1 / N : ℂ) = (1 / N : ℝ) := by push_cast; rfl
  rw [← toComplex_re, toComplex_ifft, hinv, Complex.re_ofReal_mul, Complex.re_sum, Finset.mul_sum, Finset.mul_sum]
  refine Finset.sum_congr rfl fun k _ => ?_
  have hangle : Real.pi * k.val / (2 * N) + 2 * Real.pi * j.val * k.val / N =
      Real.pi * k.val * (4 * j.val + 1) / (2 * N) := by
    field_simp
    ring
  rw [toComplex_idctSpectrum, mul_assoc, ← Complex.exp_add, ← add_mul, ← Complex.ofReal_add, hangle,
    Complex.re_ofReal_mul, Complex.exp_ofReal_mul_I_re, cos_phase_eq_dctCos]
  field_simp

theorem dilv_apply {α : Type} (N : Nat) (y : Fin N → α) (m : Fin N) : dilv N y m = y ((ilvEquiv N).symm m) :=
  (dilv_movesLine α).apply_eq N y m

/-- The inverse kernel on a line is a cosine sum over the scaled input (rule R152). -/
theorem idct1_eq_sum (nm : Norm) (N : Nat) (X : Fin N → ℝ) (m : Fin N) :
    idct1 ideal nm N X m = 2 * ∑ k : Fin N, nrmPasses ideal N (passes nm) X k * dctCos N k.val m.val := by
  rw [idct1_eq_dilv, dilv_apply, ifft_idctSpectrum_re, Equiv.apply_symm_apply]

/-! ### Linearity (rules R138, R156) -/

/-- A weighted sum is linear in its terms. -/
theorem weightedSum_linear {N : Nat} (w : Fin N → ℝ) (a b : ℝ) (x y : Fin N → ℝ) :
    ∑ n, (a * x n + b * y n) * w n = a * ∑ n, x n * w n + b * ∑ n, y n * w n := by
  simp only [add_mul, mul_assoc, Finset.sum_add_distrib, Finset.mul_sum]

theorem dct1_linear (N : Nat) (a b : ℝ) (x y : Fin N → ℝ) (k : Fin N) :
    dct1 ideal N (fun n => a * x n + b * y n) k = a * dct1 ideal N x k + b * dct1 ideal N y k := by
  rw [dct1_eq_sum, dct1_eq_sum, dct1_eq_sum, weightedSum_linear]
  ring

theorem nrmPasses_linear (N P : Nat) (a b : ℝ) (x y : Fin N → ℝ) (k : Fin N) :
    nrmPasses ideal N P (fun n => a * x n + b * y n) k = a * nrmPasses ideal N P x k + b * nrmPasses ideal N P y k := by
  simp only [nrmPasses_eq_div]
  ring

theorem idct1_linear (nm : Norm) (N : Nat) (a b : ℝ) (x y : Fin N → ℝ) (k : Fin N) :
    idct1 ideal nm N (fun n => a * x n + b * y n) k = a * idct1 ideal nm N x k + b * idct1 ideal nm N y k := by
  simp only [idct1_eq_sum, nrmPasses_linear, weightedSum_linear]
  ring

/-- Settles O53: both kernels are cosine sums of their input, and a normalisation pass divides by a constant. -/
theorem transformsLinear : Obligations.TransformsLinear := by
  refine fun N nm a b x y k => ⟨dct1_linear N a b x y k, ?_, idct1_linear nm N a b x y k⟩
  simp only [nrm_eq_div, dct1_linear]
  ring

/-! ### Orthogonality of the cosines -/

/-- The cosines of `N` multiples of an angle that `N` takes to a multiple of `pi`. -/
theorem sin_mul_sum_cos_of_mul_eq {N t : Nat} {θ : ℝ} (hθ : N * θ = t * Real.pi) :
    2 * (Real.sin (θ / 2) * ∑ k ∈ Finset.range N, Real.cos (θ * k + 0)) = (1 - (-1) ^ t) * Real.sin (θ / 2) := by
  have hdiff : N * θ / 2 - ((N - 1) * θ / 2 + 0) = θ / 2 := by ring
  have hsum : N * θ / 2 + ((N - 1) * θ / 2 + 0) = t * Real.pi - θ / 2 := by linear_combination hθ
  rw [Real.sin_mul_sum_cos, ← mul_assoc, Real.two_mul_sin_mul_cos, hdiff, hsum, Real.sin_nat_mul_pi_sub]
  ring

/-- Over a half period the cosines of a nonzero frequency sum to 1 when it is odd and to 0 when it is even. -/
theorem sum_cos_of_pos {N t : Nat} (h0 : 0 < t) (hlt : t < 2 * N) :
    ∑ k : Fin N, Real.cos (Real.pi * k.val * t / N) = (1 - (-1) ^ t) / 2 := by
  have hN : (0 : ℝ) < N := by exact_mod_cast (show 0 < N by omega)
  have ht : (0 : ℝ) < t := by exact_mod_cast h0
  have htN : (t : ℝ) < N * 2 := by exact_mod_cast (show t < N * 2 by omega)
  have hsin : 0 < Real.sin (Real.pi * t / N / 2) := by
    refine Real.sin_pos_of_pos_of_lt_pi (by positivity) ?_
    rw [div_div, div_lt_iff₀ (by positivity)]
    exact mul_lt_mul_of_pos_left htN Real.pi_pos
  have hmul := sin_mul_sum_cos_of_mul_eq (N := N) (t := t) (θ := Real.pi * t / N) (by field_simp)
  have hangle : ∀ k : Fin N, Real.pi * k.val * t / N = Real.pi * t / N * k.val + 0 := fun k => by ring
  rw [Finset.sum_range] at hmul
  simp only [hangle]
  refine mul_left_cancel₀ hsin.ne' ?_
  linear_combination hmul / 2

/-- A product of two cosines of one output is a sum of cosines of whole frequencies. -/
theorem two_mul_dctCos_mul {N m n : Nat} (hmn : m ≤ n) (hN : N ≠ 0) (k : Nat) :
    2 * (dctCos N k n * dctCos N k m) =
      Real.cos (Real.pi * k * (n - m : Nat) / N) + Real.cos (Real.pi * k * (n + m + 1 : Nat) / N) := by
  have hN' : (N : ℝ) ≠ 0 := by exact_mod_cast hN
  rw [← mul_assoc, dctCos, dctCos, Real.two_mul_cos_mul_cos]
  push_cast [Nat.cast_sub hmn]
  congr 2 <;> field_simp <;> ring

/-- The cosines of two positions of a line are orthogonal over the outputs, but for the constant term. -/
theorem two_mul_sum_dctCos_mul {N : Nat} (n m : Fin N) :
    2 * ∑ k : Fin N, dctCos N k.val n.val * dctCos N k.val m.val = 1 + if n = m then (N : ℝ) else 0 := by
  wlog hmn : m.val ≤ n.val generalizing n m with hsymm
  · simp only [mul_comm (dctCos N _ n.val), hsymm m n (by omega), eq_comm]
  have hsum : ∑ k : Fin N, Real.cos (Real.pi * k.val * (n.val + m.val + 1 : Nat) / N) =
      (1 - (-1) ^ (n.val + m.val + 1)) / 2 := sum_cos_of_pos (by omega) (by omega)
  rw [Finset.mul_sum]
  simp only [two_mul_dctCos_mul hmn n.pos.ne', Finset.sum_add_distrib, hsum]
  by_cases heq : n = m
  · subst heq
    rw [Nat.sub_self, if_pos rfl, (show Odd (n.val + n.val + 1) from ⟨n.val, by omega⟩).neg_one_pow]
    simp [add_comm]
  · have hne : n.val ≠ m.val := fun h => heq (Fin.ext h)
    have hpar : (-1 : ℝ) ^ (n.val + m.val + 1) = -(-1) ^ (n.val - m.val) := by
      rw [show n.val + m.val + 1 = n.val - m.val + (2 * m.val + 1) by omega, pow_add,
        (show Odd (2 * m.val + 1) from ⟨m.val, rfl⟩).neg_one_pow, mul_neg_one]
    rw [sum_cos_of_pos (by omega) (by omega), if_neg heq, hpar]
    ring

/-- Scaled by the passes of both directions, the cosines of two positions of a line are orthonormal. -/
theorem sum_dctCos_mul_div {N : Nat} (n m : Fin N) :
    ∑ k : Fin N, dctCos N k.val n.val * dctCos N k.val m.val * (4 / nrmScale N k.val ^ 2) = if n = m then 1 else 0 := by
  have hN : (N : ℝ) ≠ 0 := by exact_mod_cast n.pos.ne'
  have hterm : ∀ k : Fin N, dctCos N k.val n.val * dctCos N k.val m.val * (4 / nrmScale N k.val ^ 2) =
      (2 * (dctCos N k.val n.val * dctCos N k.val m.val) - if k = ⟨0, n.pos⟩ then 1 else 0) / N := fun k => by
    rw [nrmScale_sq]
    by_cases hk : k.val = 0
    · rw [if_pos hk, if_pos (Fin.ext hk), hk, dctCos_zero, dctCos_zero]
      field_simp
      norm_num
    · rw [if_neg hk, if_neg fun h => hk (congrArg Fin.val h)]
      field_simp
      ring
  simp only [hterm]
  rw [← Finset.sum_div, Finset.sum_sub_distrib, ← Finset.mul_sum, two_mul_sum_dctCos_mul,
    Finset.sum_ite_eq', if_pos (Finset.mem_univ _)]
  split_ifs <;> field_simp <;> ring

/-! ### The round trip (rule R155) -/

/-- The forward 1-D transform on a line, with its optional normalisation pass (rule R136). -/
def fwdLine {α : Type} (num : Numerics α) (nm : Norm) (N : Nat) (x : Fin N → α) : Fin N → α :=
  match nm with
  | .none => dct1 num N x
  | .ortho => nrm num N (dct1 num N x)

/-- The forward 1-D transform of an array is that of its lines. -/
theorem fwd1_eq_along {α : Type} (num : Numerics α) (nm : Norm) {a : Nat} {x : TArray α} (ha : a < x.shape.length) :
    fwd1 num nm a x = along num.zero a (fwdLine num nm) x := by
  cases nm with
  | none => rfl
  | ortho => exact along_along num.zero (dct1 num) (nrm num) ha

/-- The passes of the two directions together divide by the scale factor twice, for both settings of `norm`. -/
theorem nrmPasses_fwdLine (nm : Norm) (N : Nat) (x : Fin N → ℝ) (k : Fin N) :
    nrmPasses ideal N (passes nm) (fwdLine ideal nm N x) k = dct1 ideal N x k / nrmScale N k.val ^ 2 := by
  cases nm with
  | none => exact nrmPasses_eq_div N k 2 _
  | ortho =>
    rw [passes, nrmPasses_eq_div, fwdLine, nrm_eq_div, div_div]
    ring

/-- The inverse kernel undoes the forward one on a line. -/
theorem idct1_fwdLine (nm : Norm) (N : Nat) (x : Fin N → ℝ) : idct1 ideal nm N (fwdLine ideal nm N x) = x := by
  funext m
  calc idct1 ideal nm N (fwdLine ideal nm N x) m
    _ = 2 * ∑ k : Fin N, dct1 ideal N x k / nrmScale N k.val ^ 2 * dctCos N k.val m.val := by
      simp only [idct1_eq_sum, nrmPasses_fwdLine]
    _ = ∑ k : Fin N, ∑ n : Fin N, x n * (dctCos N k.val n.val * dctCos N k.val m.val * (4 / nrmScale N k.val ^ 2)) := by
      rw [Finset.mul_sum]
      refine Finset.sum_congr rfl fun k _ => ?_
      rw [dct1_eq_sum, Finset.mul_sum, Finset.sum_div, Finset.sum_mul, Finset.mul_sum]
      exact Finset.sum_congr rfl fun n _ => by ring
    _ = ∑ n : Fin N, x n * if n = m then 1 else 0 := by
      rw [Finset.sum_comm]
      simp only [← Finset.mul_sum, sum_dctCos_mul_div]
    _ = x m := by simp

/-- The inverse 1-D transform undoes the forward one on a full array, along any axis and for both settings of `norm`. -/
theorem idct1Along_fwd1 (nm : Norm) {a : Nat} {x : TArray ℝ} (ha : a < x.shape.length)
    (hfull : x.data.length = shapeSize x.shape) : idct1Along ideal nm a (fwd1 ideal nm a x) = x := by
  rw [fwd1_eq_along ideal nm ha]
  exact along_along_cancel (0 : ℝ) (idct1_fwdLine nm) ha hfull

/-- Settles O60: with no length given both commands pass the same checks and transform their source as it is. -/
theorem commandRoundTrip : Obligations.CommandRoundTrip := by
  intro p f axis len x y hnum hx hlg h
  obtain ⟨-, -, -, hfull⟩ := (TArray.wf_iff p.maxElems x).1 hx
  obtain ⟨nm, a, hw, hc, rfl⟩ := (command1_eq_ok_iff_of_no_length hlg hfull).1 h
  obtain ⟨hcanon, -⟩ := check1_ok hc
  have hy : (fwd1 p.num nm a x).data.length = shapeSize (fwd1 p.num nm a x).shape := by simp
  refine (command1_eq_ok_iff_of_no_length hlg hy).2 ⟨nm, a, hw, by rwa [fwd1_shape], ?_⟩
  rw [hnum]
  exact (idct1Along_fwd1 nm (canon_lt hcanon) hfull).symm

end Sys2Proof.Machine
end

section
/-! PROOFS. The inverse 1-D transform (spec/43_idct2_1d_engine.md rules R152 to R155): the command `IDCT` completes, the kernel's
closed form for both settings of `norm`, and the round trip. -/

namespace Sys2Proof.Machine

/-! ### The command completes (rule R153) -/

/-- A command along one axis on operands that pass every check has the kernel's result on the adapted array. -/
theorem command1_eq_ok_of_checks {α : Type} {p : Params α} {legal : Bool} (kernel : Norm → Nat → TArray α → TArray α)
    {f : Fields} {axis len : Vector Word 8} {x : TArray α} {nm : Norm} {a n : Nat} (hlegal : legal = true)
    (ht : f.type = 2#4) (hnm : NormGiven f nm) (hcanon : canon (axisRaw1 f axis) x.shape.length = some a)
    (hn : n = targetLen f len x.shape a) (h0 : f.lg = true → n ≠ 0)
    (hfit : fits p.maxElems (shapeSize (x.shape.set a n)) = true) :
    command1 p legal kernel f axis len (.array x) = .ok (kernel nm a (adapt p.num x a n)) := by
  subst hlegal
  exact command1_eq_ok_iff.2 ⟨nm, a, n, checkWord_eq_ok ht hnm, check1_eq_ok_iff.2 ⟨hcanon, hn, h0, hfit⟩, rfl⟩

/-- A command that has a result completes with it. -/
theorem exec_eq_complete_of_ok {i : Instr} {s : State} {y : TArray Elem}
    (h : commandResult Config.params i s.axis s.len (s.readA i.fields.rs) = .ok y) :
    exec i s = .next { s with toEngine := s.toEngine.complete i.fields.rd y } := by
  rw [exec_eq, h]
  rfl

/-- Settles O18: every check passes, so the command completes with the kernel's result. -/
theorem idctCompletes : Obligations.IdctCompletes := by
  intro f s x nm a n hwf ht hnm hsrc hcanon hn h0 hfit
  have hres : commandResult Config.params (.idct f) s.axis s.len (s.readA f.rs) =
      .ok (idct1Along Config.num nm a (adapt Config.num x a n)) := by
    rw [Engine.readA, hsrc]
    exact command1_eq_ok_of_checks (idct1Along Config.num) hwf ht hnm hcanon hn h0 hfit
  exact exec_eq_complete_of_ok hres

/-! ### The closed form for each setting of `norm` (rules R152, R154) -/

/-- The first term of a sum over the positions of a line stands apart. -/
theorem sum_eq_first_add {N : Nat} (m : Fin N) (g : Fin N → ℝ) :
    ∑ k, g k = g ⟨0, m.pos⟩ + ∑ k : Fin N, if k.val = 0 then 0 else g k := by
  obtain _ | N := N
  · exact m.elim0
  · rw [Fin.sum_univ_succ, Fin.sum_univ_succ]
    simp

/-- The inverse kernel over its input, from the weights `P` passes leave on the first element and on the others. -/
theorem idct1_eq_weighted {nm : Norm} {N : Nat} {c w : ℝ} (hfirst : nrmScale N 0 ^ passes nm = 2 * c)
    (hrest : ∀ k, k ≠ 0 → 2 / nrmScale N k ^ passes nm = w) (X : Fin N → ℝ) (m : Fin N) :
    idct1 ideal nm N X m = X ⟨0, m.pos⟩ / c + w * ∑ k : Fin N, if k.val = 0 then 0 else X k * dctCos N k.val m.val := by
  rw [idct1_eq_sum, sum_eq_first_add m, mul_add, Finset.mul_sum, Finset.mul_sum]
  congr 1
  · rw [nrmPasses_eq_div, dctCos_zero, mul_one, hfirst, ← mul_div_assoc, mul_div_mul_left _ _ two_ne_zero]
  · refine Finset.sum_congr rfl fun k _ => ?_
    split_ifs with hk
    · rw [mul_zero, mul_zero]
    · rw [nrmPasses_eq_div, ← hrest k.val hk]
      ring

/-- Rule R152 for `norm = none`: two passes divide by `4N` at position 0 and by `2N` elsewhere. -/
theorem idct1_none_eq (N : Nat) (X : Fin N → ℝ) (m : Fin N) : idct1 ideal .none N X m =
    X ⟨0, m.pos⟩ / (2 * N) + 1 / N * ∑ k : Fin N, if k.val = 0 then 0 else X k * dctCos N k.val m.val := by
  refine idct1_eq_weighted ?_ (fun k hk => ?_) X m
  · rw [passes, nrmScale_sq, if_pos rfl]
    ring
  · rw [passes, nrmScale_sq, if_neg hk, div_mul_cancel_left₀ two_ne_zero, one_div]

/-- Rule R152 for `norm = ortho`: one pass divides by `sqrt(4N)` at position 0 and by `sqrt(2N)` elsewhere. -/
theorem idct1_ortho_eq (N : Nat) (X : Fin N → ℝ) (m : Fin N) : idct1 ideal .ortho N X m =
    X ⟨0, m.pos⟩ / Real.sqrt N +
      Real.sqrt (2 / N) * ∑ k : Fin N, if k.val = 0 then 0 else X k * dctCos N k.val m.val := by
  refine idct1_eq_weighted ?_ (fun k hk => ?_) X m
  · rw [passes, pow_one, nrmScale, if_pos rfl, Real.sqrt_mul (by norm_num), show (4 : ℝ) = 2 ^ 2 by norm_num,
      Real.sqrt_sq (by norm_num)]
  · rw [passes, pow_one, nrmScale, if_neg hk, Real.sqrt_mul (by norm_num), ← div_div, Real.div_sqrt,
      Real.sqrt_div (by norm_num)]

/-- Settles O52: on an array, the sum of the line through each multi-index. -/
theorem idctClosedForm : Obligations.IdctClosedForm :=
  ⟨fun N X m => ⟨fun nm => idct1_eq_sum nm N X m, idct1_none_eq N X m, idct1_ortho_eq N X m⟩,
    fun _ _ => ⟨fun _ => rfl, fun _ hi ha =>
      ⟨(at_along (0 : ℝ) (idct1 ideal .none) hi ha).trans (idct1_none_eq _ _ _),
        (at_along (0 : ℝ) (idct1 ideal .ortho) hi ha).trans (idct1_ortho_eq _ _ _)⟩⟩⟩

/-! ### The round trip (rule R155) -/

/-- Settles O56: every line is brought back, because the cosines are orthogonal (`sum_dctCos_mul_div`). -/
theorem roundTrip : Obligations.RoundTrip :=
  fun nm _ _ ha hfull => idct1Along_fwd1 nm ha hfull

end Sys2Proof.Machine
end

section
/-! PROOFS. The unit `dct_nd_compositor` (spec/44_dct_nd_compositor.md), its operands and its commands: the mirror (rule R171),
the checks of a command over a list of axes in their order (rules R165, R166), its completion (rules R175, R177), and one
listed axis (rule R168). -/

namespace Sys2Proof.Machine

/-! ### The mirror (rule R171) -/

theorem mirror_of_eq_zero {α : Type} {N1 N2 : Nat} (V : Fin N1 → Fin N2 → Cx α) (k1 : Fin N1) {k2 : Fin N2}
    (h : k2.val = 0) : mirror N1 N2 V k1 k2 = V k1 k2 := by
  refine congrArg (V k1) (Fin.ext ?_)
  simp [h]

theorem mirror_of_pos {α : Type} {N1 N2 : Nat} (V : Fin N1 → Fin N2 → Cx α) (k1 : Fin N1) {k2 : Fin N2}
    (h : 1 ≤ k2.val) : mirror N1 N2 V k1 k2 = V k1 ⟨N2 - k2.val, by omega⟩ :=
  congrArg (V k1) (Fin.ext (Nat.mod_eq_of_lt (by omega)))

/-- Settles O47: the roll takes position 0 from the last place of the flip, and any other from the place before it. -/
theorem mirrorIsFlipThenRoll : Obligations.MirrorIsFlipThenRoll := by
  refine fun α N1 N2 V k1 k2 => ⟨mirror_of_eq_zero V k1, mirror_of_pos V k1, ?_⟩
  rcases Nat.eq_zero_or_pos k2.val with h0 | hpos
  · rw [mirror_of_eq_zero V k1 h0]
    refine congrArg (V k1) (Fin.ext ?_)
    simp only [h0, Nat.zero_add, Nat.mod_eq_of_lt (Nat.sub_one_lt k2.pos.ne'), Nat.sub_self]
  · rw [mirror_of_pos V k1 hpos]
    have hroll : (k2.val + (N2 - 1)) % N2 = k2.val - 1 := by
      rw [show k2.val + (N2 - 1) = k2.val - 1 + N2 by omega, Nat.add_mod_right, Nat.mod_eq_of_lt (by omega)]
    refine congrArg (V k1) (Fin.ext ?_)
    simp only [hroll]
    omega

/-! ### The axis list and the length list (rules R75, R76, R165) -/

/-- A list that agrees with the first `n` registers, each read by `g`, entry by entry, is those registers read by `g`. -/
theorem map_take_toList_eq {β : Type} {v : Vector Word 8} {n : Nat} {g : Word → β} {l : List β} (hn : n ≤ 8)
    (hlen : l.length = n) (h : ∀ j : Fin 8, j.val < n → l[j.val]? = some (g v[j])) : (v.toList.take n).map g = l := by
  refine List.ext_getElem (by simp [hlen, hn]) fun k _ hk => ?_
  have hkn : k < n := hlen ▸ hk
  have hentry := h ⟨k, by omega⟩ hkn
  rw [List.getElem?_eq_getElem hk, Option.some.injEq] at hentry
  simpa using hentry.symm

section
variable {f : Fields} {axis len : Vector Word 8} {r : Nat} {raws : List Int} {lens : Option (List Nat)}

/-- The axes given entry by entry are the raw axes of the command. -/
theorem AxesGiven.axesRaw_eq (h : AxesGiven f axis r raws) (hnax : f.nax.toNat ≤ 8) : axesRaw f axis r = raws := by
  unfold axesRaw
  split
  next hag =>
    obtain ⟨hlen, hentry⟩ := h.1 hag
    exact map_take_toList_eq hnax hlen hentry
  next hag =>
    obtain ⟨hlen, hentry⟩ := h.2 (by simpa using hag)
    refine List.ext_getElem? fun k => ?_
    rcases Nat.lt_or_ge k r with hk | hk
    · simp [hentry k hk, hk]
    · rw [List.getElem?_eq_none (by simpa using hk), List.getElem?_eq_none (by omega)]

/-- There are as many axes as the command lists. -/
theorem AxesGiven.length_eq (h : AxesGiven f axis r raws) : raws.length = axisCountOf f r := by
  unfold axisCountOf
  split
  next hag => exact (h.1 hag).1
  next hag => exact (h.2 (by simpa using hag)).1

/-- The lengths given entry by entry are the target lengths of the command. -/
theorem LensGiven.lensOf_eq (h : LensGiven f len lens) (hnlen : f.nlen.toNat ≤ 8) : lensOf f len = lens := by
  unfold lensOf
  split
  next hlg =>
    obtain ⟨ls, rfl, hlen, hentry⟩ := h.2 hlg
    exact congrArg some (map_take_toList_eq hnlen hlen hentry)
  next hlg => exact (h.1 (by simpa using hlg)).symm

end

/-! ### The canonical axes (rules R130, R166) -/

theorem canon_eq_axisOf {a : Int} {r : Nat} (hlo : -(r : Int) ≤ a) (hhi : a < r) : canon a r = some (axisOf r a) := by
  unfold axisOf
  split
  next h0 => exact canon_of_nonneg h0 (by omega)
  next h0 => exact canon_of_neg hlo (by omega)

theorem canonAll_eq_some {r : Nat} : ∀ {raws : List Int}, (∀ a ∈ raws, -(r : Int) ≤ a ∧ a < r) →
    canonAll raws r = some (raws.map (axisOf r))
  | [], _ => rfl
  | a :: raws, h => by
    obtain ⟨⟨hlo, hhi⟩, htail⟩ := List.forall_mem_cons.1 h
    simp only [canonAll, canon_eq_axisOf hlo hhi, canonAll_eq_some htail, List.map_cons]

theorem canonAll_eq_none {r : Nat} {a : Int} (hout : a < -(r : Int) ∨ (r : Int) ≤ a) : ∀ {raws : List Int}, a ∈ raws →
    canonAll raws r = none
  | b :: raws, h => by
    rcases List.mem_cons.1 h with rfl | hmem
    · simp only [canonAll, canon_of_outside hout]
    · simp only [canonAll, canonAll_eq_none hout hmem]
      split <;> rfl

/-! ### The checks of a command over a list of axes, in their order (rules R165, R166, R229) -/

/-- The counts of a command over a list of axes are in order (rules R165, R166). -/
def CountsOk (f : Fields) (r : Nat) : Prop :=
  (f.ag = true → 1 ≤ f.nax.toNat ∧ f.nax.toNat ≤ r) ∧ (f.lg = true → f.nlen.toNat = axisCountOf f r)

/-- The counts are in order exactly when none of the three count checks fails. -/
theorem countsOk_iff (f : Fields) (r : Nat) : CountsOk f r ↔ ¬(f.ag = true ∧ f.nax.toNat = 0) ∧
    ¬(f.ag = true ∧ f.nax.toNat > r) ∧ ¬(f.lg = true ∧ f.nlen.toNat ≠ axisCountOf f r) := by
  unfold CountsOk
  grind

/-- The counts of a legal command over a list of axes name registers that there are. -/
theorem counts_le_of_countIllegal {f : Fields} (h : f.countIllegal = none) : f.nax.toNat ≤ 8 ∧ f.nlen.toNat ≤ 8 :=
  ((Fields.countIllegal_eq_none_iff f).1 h).2.2

section
variable {m : Option Nat} {f : Fields} {axis len : Vector Word 8} {sh : List Nat}

theorem checkN_of_not_countsOk (h : ¬CountsOk f sh.length) : checkN m f axis len sh = .error .eShape := by
  rw [countsOk_iff] at h
  unfold checkN
  split
  · rfl
  next hzero =>
    split
    · rfl
    next hmany => exact if_pos (by_contra fun hlens => h ⟨hzero, hmany, hlens⟩)

/-- With the counts in order the first check left is that of the axes. -/
theorem checkN_of_canonAll_eq_none (h : CountsOk f sh.length)
    (hnone : canonAll (axesRaw f axis sh.length) sh.length = none) : checkN m f axis len sh = .error .eAxis := by
  obtain ⟨hzero, hmany, hlens⟩ := (countsOk_iff f sh.length).1 h
  rw [checkN, if_neg hzero, if_neg hmany, if_neg hlens, hnone]

/-- With the counts and the axes in order the checks left are those of repeated axes, of a length 0 and of the capacity. -/
theorem checkN_of_canonAll_eq_some (h : CountsOk f sh.length) {axes : List Nat}
    (haxes : canonAll (axesRaw f axis sh.length) sh.length = some axes) :
    checkN m f axis len sh =
      if ¬axes.Nodup then .error .eAxis
      else if 0 ∈ (lensOf f len).getD [] then .error .eShape
      else if fits m (shapeSize (adaptedShape sh axes (lensOf f len))) = false then .error .eCap
      else .ok (axes, lensOf f len) := by
  obtain ⟨hzero, hmany, hlens⟩ := (countsOk_iff f sh.length).1 h
  rw [checkN, if_neg hzero, if_neg hmany, if_neg hlens, haxes]

variable {raws : List Int} {lens : Option (List Nat)}

/-- An axis out of range gives `E_AXIS`, for axes given entry by entry (rule R223). -/
theorem checkN_of_axis_outside (hf : f.countIllegal = none) (haxes : AxesGiven f axis sh.length raws)
    (h : CountsOk f sh.length) (hout : ¬∀ a ∈ raws, -(sh.length : Int) ≤ a ∧ a < sh.length) :
    checkN m f axis len sh = .error .eAxis := by
  refine checkN_of_canonAll_eq_none h ?_
  rw [haxes.axesRaw_eq (counts_le_of_countIllegal hf).1]
  push Not at hout
  obtain ⟨a, hmem, ha⟩ := hout
  exact canonAll_eq_none (by omega) hmem

/-- The checks left when every axis is in range, for axes and lengths given entry by entry. -/
theorem checkN_of_axes_inRange (hf : f.countIllegal = none) (haxes : AxesGiven f axis sh.length raws)
    (hlens : LensGiven f len lens) (h : CountsOk f sh.length)
    (hrange : ∀ a ∈ raws, -(sh.length : Int) ≤ a ∧ a < sh.length) :
    checkN m f axis len sh =
      if ¬(raws.map (axisOf sh.length)).Nodup then .error .eAxis
      else if 0 ∈ lens.getD [] then .error .eShape
      else if fits m (shapeSize (adaptedShape sh (raws.map (axisOf sh.length)) lens)) = false then .error .eCap
      else .ok (raws.map (axisOf sh.length), lens) := by
  obtain ⟨hnax, hnlen⟩ := counts_le_of_countIllegal hf
  rw [checkN_of_canonAll_eq_some h (by rw [haxes.axesRaw_eq hnax]; exact canonAll_eq_some hrange),
    hlens.lensOf_eq hnlen]

end

/-- A command over a list of axes whose word is in order gives the error of its list checks, or the composition over the listed
axes of the array adapted on all of them. -/
theorem commandN_eq_map_checkN {α : Type} {p : Params α} {legal : Bool} {f : Fields} {nm : Norm}
    (hw : checkWord legal f = .ok nm) (kernel : Norm → List Nat → TArray α → TArray α) (axis len : Vector Word 8)
    (x : TArray α) : commandN p legal kernel f axis len (.array x) =
      (checkN p.maxElems f axis len x.shape).map fun c => kernel nm c.1 (adaptAll p.num x c.1 c.2) := by
  simp only [commandN, hw, checkSource]
  split
  next e he => rw [he]; rfl
  next axes lens hok => rw [hok]; rfl

@[simp] theorem fwd_shape {α : Type} (num : Numerics α) (nm : Norm) : ∀ (axes : List Nat) (x : TArray α),
    (fwd num nm axes x).shape = x.shape
  | [], _ => rfl
  | [a], x => fwd1_shape num nm a x
  | p :: q :: axes, x => (fwd_shape num nm axes _).trans (dct2d_shape num nm p q x)

@[simp] theorem inv_shape {α : Type} (num : Numerics α) (nm : Norm) : ∀ (axes : List Nat) (x : TArray α),
    (inv num nm axes x).shape = x.shape
  | [], _ => rfl
  | a :: axes, x => (inv_shape num nm axes _).trans (idct1Along_shape num nm a x)

/-- `DCTN` and `IDCTN` are commands over a list of axes, each with a composition that keeps the shape. -/
theorem commandResult_eq_commandN {α : Type} (p : Params α) {f : Fields} {i : Instr} (hi : i = .dctn f ∨ i = .idctn f) :
    i.illegal? = f.countIllegal ∧ ∃ kernel : Norm → List Nat → TArray α → TArray α,
      (∀ nm axes x, (kernel nm axes x).shape = x.shape) ∧
      ∀ axis len src, commandResult p i axis len src = commandN p i.wf kernel f axis len src := by
  rcases hi with rfl | rfl
  · exact ⟨rfl, fwd p.num, fwd_shape p.num, fun _ _ _ => rfl⟩
  · exact ⟨rfl, inv p.num, inv_shape p.num, fun _ _ _ => rfl⟩

theorem exists_normGiven {f : Fields} (h : f.norm = 0#2 ∨ f.norm = 1#2) : ∃ nm, NormGiven f nm := by
  rcases h with h | h
  · exact ⟨.none, .inl ⟨h, rfl⟩⟩
  · exact ⟨.ortho, .inr ⟨h, rfl⟩⟩

/-- Settles O23: each clause is the branch of the list checks that its premises lead to. -/
theorem listErrorsInOrder : Obligations.ListErrorsInOrder := by
  intro p f axis len x i hi hwf ht hnorm r m countsOk
  obtain ⟨hill, kernel, hshape, hcmd⟩ := commandResult_eq_commandN p hi
  obtain ⟨nm, hnm⟩ := exists_normGiven hnorm
  have hf : f.countIllegal = none := hill.symm.trans (Option.isNone_iff_eq_none.1 hwf)
  rw [hcmd, hwf, commandN_eq_map_checkN (checkWord_eq_ok ht hnm)]
  refine ⟨fun hc => by rw [checkN_of_not_countsOk hc]; rfl, ?_⟩
  intro raws lens haxes hlens hc inRange axes x1
  have hx1 : x1 = adaptAll p.num x axes lens := by cases lens <;> rfl
  have hchecks := checkN_of_axes_inRange (m := p.maxElems) hf haxes hlens hc
  rw [hx1, adaptAll_shape]
  refine ⟨fun hr => ?_, fun hr hn => ?_, fun hr hn h0 => ?_, fun hr hn h0 hfit => ?_, fun hr hn h0 hfit => ?_⟩
  · rw [checkN_of_axis_outside hf haxes hc hr]
    rfl
  · rw [hchecks hr, if_pos hn]
    rfl
  · rw [hchecks hr, if_neg (not_not.2 hn), if_pos h0]
    rfl
  · rw [hchecks hr, if_neg (not_not.2 hn), if_neg h0, if_pos hfit]
    rfl
  · rw [hchecks hr, if_neg (not_not.2 hn), if_neg h0, if_neg (ne_false_of_eq_true hfit)]
    exact ⟨_, rfl, by rw [hshape, adaptAll_shape]⟩

/-! ### The commands complete (rules R175, R177) -/

/-- The list checks pass when the counts, the axes, the lengths and the size are in order. -/
theorem checkN_eq_ok_of_given {m : Option Nat} {f : Fields} {axis len : Vector Word 8} {sh axes : List Nat}
    {raws : List Int} {lens : Option (List Nat)} (hf : f.countIllegal = none) (haxes : AxesGiven f axis sh.length raws)
    (hlens : LensGiven f len lens) (hnax : f.ag = true → 1 ≤ f.nax.toNat ∧ f.nax.toNat ≤ sh.length)
    (hnlen : f.lg = true → f.nlen.toNat = raws.length) (hrange : ∀ a ∈ raws, -(sh.length : Int) ≤ a ∧ a < sh.length)
    (hax : axes = raws.map (axisOf sh.length)) (hnodup : axes.Nodup) (h0 : 0 ∉ lens.getD [])
    (hfit : fits m (shapeSize (adaptedShape sh axes lens)) = true) : checkN m f axis len sh = .ok (axes, lens) := by
  subst hax
  have hcounts : CountsOk f sh.length := ⟨hnax, fun hlg => (hnlen hlg).trans haxes.length_eq⟩
  rw [checkN_of_axes_inRange hf haxes hlens hcounts hrange, if_neg (not_not.2 hnodup), if_neg h0,
    if_neg (ne_false_of_eq_true hfit)]

/-- A command over a list of axes whose checks pass has the composition's result on the adapted array. -/
theorem commandN_eq_ok_of_checks {α : Type} {p : Params α} {legal : Bool} (kernel : Norm → List Nat → TArray α → TArray α)
    {f : Fields} {axis len : Vector Word 8} {x : TArray α} {nm : Norm} {axes : List Nat} {lens : Option (List Nat)}
    (hlegal : legal = true) (ht : f.type = 2#4) (hnm : NormGiven f nm)
    (hc : checkN p.maxElems f axis len x.shape = .ok (axes, lens)) :
    commandN p legal kernel f axis len (.array x) = .ok (kernel nm axes (adaptAll p.num x axes lens)) := by
  subst hlegal
  rw [commandN_eq_map_checkN (checkWord_eq_ok ht hnm), hc]
  rfl

/-- Settles O19: every check passes, so the command completes with the forward composition. -/
theorem dctnCompletes : Obligations.DctnCompletes := by
  intro f s x x1 nm raws axes lens hwf ht hnm hsrc haxes hlens hnax hnlen hrange hax hnodup h0 hx1 hfit
  obtain rfl : x1 = adaptAll Config.num x axes lens := by rw [hx1]; cases lens <;> rfl
  have hc := checkN_eq_ok_of_given (m := Config.maxElems) (Option.isNone_iff_eq_none.1 hwf) haxes hlens hnax hnlen hrange
    hax hnodup h0 (by rwa [← adaptAll_shape Config.num])
  refine exec_eq_complete_of_ok (i := .dctn f) ?_
  rw [Engine.readA, Instr.fields, hsrc]
  exact commandN_eq_ok_of_checks (p := Config.params) (fwd Config.num) hwf ht hnm hc

/-- Settles O20: every check passes, so the command completes with the inverse composition. -/
theorem idctnCompletes : Obligations.IdctnCompletes := by
  intro f s x x1 nm raws axes lens hwf ht hnm hsrc haxes hlens hnax hnlen hrange hax hnodup h0 hx1 hfit
  obtain rfl : x1 = adaptAll Config.num x axes lens := by rw [hx1]; cases lens <;> rfl
  have hc := checkN_eq_ok_of_given (m := Config.maxElems) (Option.isNone_iff_eq_none.1 hwf) haxes hlens hnax hnlen hrange
    hax hnodup h0 (by rwa [← adaptAll_shape Config.num])
  refine exec_eq_complete_of_ok (i := .idctn f) ?_
  rw [Engine.readA, Instr.fields, hsrc]
  exact commandN_eq_ok_of_checks (p := Config.params) (inv Config.num) hwf ht hnm hc

/-! ### One listed axis (rule R168) -/

/-- `DCTN` and `IDCTN` over one axis, with at most one length, are as legal as the one-axis commands with the same fields. -/
theorem countIllegal1_eq_of_one {f : Fields} (hnax : f.nax = 1#4) (hlen : f.lg = true → f.nlen = 1#4) :
    f.countIllegal1 = f.countIllegal := by
  unfold Fields.countIllegal1
  split
  next e he => exact he.symm
  next he => rw [if_neg fun h => h.2 hnax, if_neg fun h => h.2 (hlen h.1), he]

theorem map_take_one {β : Type} (v : Vector Word 8) (g : Word → β) : (v.toList.take 1).map g = [g v[0]] :=
  map_take_toList_eq (by decide) rfl fun j hj => by
    obtain rfl : j = 0 := Fin.ext (by simpa using hj)
    rfl

section
variable {f : Fields} {axis len : Vector Word 8}

theorem axesRaw_of_one (hag : f.ag = true) (hnax : f.nax = 1#4) (r : Nat) : axesRaw f axis r = [axisRaw1 f axis] := by
  rw [axesRaw, if_pos hag, axisRaw1, if_pos hag, hnax]
  exact map_take_one axis axisValue

/-- Without a target length the axis keeps its extent (log entry 20). -/
theorem targetLen_of_no_length (hlg : f.lg = false) (sh : List Nat) (a : Nat) : targetLen f len sh a = sh.getD a 0 :=
  if_neg (by simp [hlg])

theorem lensOf_of_one (hlen : f.lg = true → f.nlen = 1#4) (sh : List Nat) (a : Nat) :
    lensOf f len = if f.lg then some [targetLen f len sh a] else none := by
  unfold lensOf
  split
  next hlg =>
    rw [targetLen, if_pos hlg, hlen hlg]
    exact congrArg some (map_take_one len lenValue)
  next => rfl

end

/-- On one axis the list checks are those of the one-axis commands. -/
theorem checkN_of_one {m : Option Nat} {f : Fields} {axis len : Vector Word 8} {sh : List Nat} (hsh : 1 ≤ sh.length)
    (hag : f.ag = true) (hnax : f.nax = 1#4) (hlen : f.lg = true → f.nlen = 1#4) :
    checkN m f axis len sh =
      (check1 m f axis len sh).map fun c => ([c.1], if f.lg then some [c.2] else none) := by
  have hcounts : CountsOk f sh.length := by
    refine ⟨fun _ => by simpa [hnax] using hsh, fun hlg => ?_⟩
    rw [axisCountOf, if_pos hag, hlen hlg, hnax]
  unfold check1
  cases hc : canon (axisRaw1 f axis) sh.length with
  | none =>
    rw [checkN_of_canonAll_eq_none hcounts (by simp only [axesRaw_of_one hag hnax, canonAll, hc])]
    rfl
  | some a =>
    rw [checkN_of_canonAll_eq_some hcounts (axes := [a]) (by simp only [axesRaw_of_one hag hnax, canonAll, hc]),
      if_neg (not_not.2 (List.nodup_singleton a)), lensOf_of_one hlen sh a]
    have hzero : 0 ∈ (if f.lg then some [targetLen f len sh a] else none).getD [] ↔
        f.lg = true ∧ targetLen f len sh a = 0 := by
      cases f.lg <;> simp [eq_comm]
    have hshape : adaptedShape sh [a] (if f.lg then some [targetLen f len sh a] else none) =
        sh.set a (targetLen f len sh a) := by
      cases hlg : f.lg with
      | true => rfl
      | false => rw [targetLen_of_no_length hlg, set_getD_self (canon_lt hc)]; rfl
    simp only [hzero, hshape, apply_ite (Except.map _)]
    rfl

/-- On one axis a command over a list of axes is the one-axis command whose kernel is its composition on that axis alone. -/
theorem commandN_of_one {α : Type} {p : Params α} {legal : Bool} {kernel : Norm → List Nat → TArray α → TArray α}
    {f : Fields} {axis len : Vector Word 8} {src : AReg α} (hsrc : src.wf p.maxElems = true)
    (hag : f.ag = true) (hnax : f.nax = 1#4) (hlen : f.lg = true → f.nlen = 1#4) :
    commandN p legal kernel f axis len src = command1 p legal (fun nm a => kernel nm [a]) f axis len src := by
  unfold commandN command1
  cases checkWord legal f with
  | error e => rfl
  | ok nm =>
    cases src with
    | empty => rfl
    | array x =>
      obtain ⟨⟨hrank, -⟩, -, -, hfull⟩ := (TArray.wf_iff p.maxElems x).1 hsrc
      simp only [checkSource, checkN_of_one hrank hag hnax hlen]
      cases hc : check1 p.maxElems f axis len x.shape with
      | error e => rfl
      | ok c =>
        obtain ⟨a, n⟩ := c
        obtain ⟨-, rfl, -⟩ := check1_ok hc
        refine congrArg (fun y => Except.ok (kernel nm [a] y)) ?_
        cases hlg : f.lg with
        | true => rfl
        | false => rw [targetLen_of_no_length hlg, adapt_self p.num hfull]; rfl

/-- Settles O30: the composition on one axis is the 1-D kernel along it, and the legality conditions are the same. -/
theorem oneAxisDelegates : Obligations.OneAxisDelegates := by
  intro f s hmem hag hnax hcount
  have hlen : f.lg = true → f.nlen = 1#4 := fun hlg => hcount.elim And.right fun h => absurd hlg (by simp [h.1])
  have hsrc : (s.readA f.rs).wf Config.params.maxElems = true := Engine.readA_wf hmem f.rs
  have hdct : (Instr.dctn f).wf = (Instr.dct f).wf := congrArg Option.isNone (countIllegal1_eq_of_one hnax hlen).symm
  have hidct : (Instr.idctn f).wf = (Instr.idct f).wf := hdct
  have hfwd : commandResult Config.params (.dctn f) s.axis s.len (s.readA f.rs) =
      commandResult Config.params (.dct f) s.axis s.len (s.readA f.rs) := by
    simp only [commandResult, dctnCommand, commandN_of_one hsrc hag hnax hlen, hdct]
    rfl
  have hinv : commandResult Config.params (.idctn f) s.axis s.len (s.readA f.rs) =
      commandResult Config.params (.idct f) s.axis s.len (s.readA f.rs) := by
    simp only [commandResult, idctnCommand, commandN_of_one hsrc hag hnax hlen, hidct]
    rfl
  simp only [exec_eq, Instr.fields, hfwd, hinv, and_self]

end Sys2Proof.Machine
end

section
/-! PROOFS. The compositions of the unit `dct_nd_compositor` in the ideal numerics (spec/44_dct_nd_compositor.md rules R173,
R174, R176, R178, R179): the 2-D fast path is two 1-D transforms, transforms along different axes commute, and the inverse
composition undoes the forward one axis by axis. -/

namespace Sys2Proof.Machine

/-! ### Lifts along different axes -/

/-- A plane function that is a line function of line functions is, on an array, the one lift after the other. -/
theorem alongPlane_eq_along_along {α : Type} (z : α) {f g : (N : Nat) → (Fin N → α) → Fin N → α}
    {F : (N1 N2 : Nat) → (Fin N1 → Fin N2 → α) → Fin N1 → Fin N2 → α}
    (hF : ∀ N1 N2 x k1 k2, F N1 N2 x k1 k2 = f N1 (fun n1 => g N2 (x n1) k2) k1) {p q : Nat} {x : TArray α}
    (hp : p < x.shape.length) (hq : q < x.shape.length) (hpq : p ≠ q) :
    alongPlane z p q F x = along z p f (along z q g x) := by
  refine TArray.ext_at z rfl (alongPlane_length z p q F x) (along_length z p f _) fun i (hi : inBounds x.shape i = true) => ?_
  have hline : ∀ j : Fin (x.shape.getD p 0), (along z q g x).at z (i.set p j.val) =
      g (x.shape.getD q 0) (fun j2 => x.at z ((i.set p j.val).set q j2.val)) ⟨i.getD q 0, inBounds_getD hi hq⟩ := fun j => by
    rw [at_along z g (inBounds_set hi j.isLt) hq]
    exact congrArg _ (Fin.ext (getD_set_of_ne hpq i j.val))
  rw [at_alongPlane z F hi hp hq, hF, at_along (x := along z q g x) z f hi hp]
  exact congrArg (fun l => f (x.shape.getD p 0) l ⟨i.getD p 0, inBounds_getD hi hp⟩) (funext fun j => (hline j).symm)

/-- A plane may be read with its axes exchanged. -/
theorem alongPlane_swap {α : Type} (z : α) (F : (N1 N2 : Nat) → (Fin N1 → Fin N2 → α) → Fin N1 → Fin N2 → α) {p q : Nat}
    {x : TArray α} (hp : p < x.shape.length) (hq : q < x.shape.length) (hpq : p ≠ q) :
    alongPlane z p q F x = alongPlane z q p (fun N2 N1 y k2 k1 => F N1 N2 (fun n1 n2 => y n2 n1) k1 k2) x := by
  refine TArray.ext_at z rfl (alongPlane_length z p q F x) (alongPlane_length z q p _ x)
    fun i (hi : inBounds x.shape i = true) => ?_
  rw [at_alongPlane z F hi hp hq, at_alongPlane z _ hi hq hp]
  simp only [List.set_comm _ _ hpq]

/-- `f` weighs its line: each position of the result is a sum of the elements of the line with fixed weights. -/
def WeighsLine (f : (N : Nat) → (Fin N → ℝ) → Fin N → ℝ) : Prop :=
  ∃ w : (N : Nat) → Fin N → Fin N → ℝ, ∀ N x k, f N x k = ∑ n, x n * w N k n

/-- Weighted sums along two axes of a plane may be taken in either order. -/
theorem WeighsLine.swap {f g : (N : Nat) → (Fin N → ℝ) → Fin N → ℝ} (hf : WeighsLine f) (hg : WeighsLine g) {N1 N2 : Nat}
    (x : Fin N1 → Fin N2 → ℝ) (k1 : Fin N1) (k2 : Fin N2) :
    f N1 (fun n1 => g N2 (x n1) k2) k1 = g N2 (fun n2 => f N1 (fun n1 => x n1 n2) k1) k2 := by
  obtain ⟨w, hw⟩ := hf
  obtain ⟨u, hu⟩ := hg
  simp only [hw, hu, Finset.sum_mul]
  rw [Finset.sum_comm]
  exact Finset.sum_congr rfl fun n2 _ => Finset.sum_congr rfl fun n1 _ => mul_right_comm _ _ _

/-- Lifts of weighted sums along two different axes commute. -/
theorem WeighsLine.along_comm {f g : (N : Nat) → (Fin N → ℝ) → Fin N → ℝ} (hf : WeighsLine f) (hg : WeighsLine g)
    {p q : Nat} {x : TArray ℝ} (hp : p < x.shape.length) (hq : q < x.shape.length) (hpq : p ≠ q) :
    along 0 p f (along 0 q g x) = along 0 q g (along 0 p f x) :=
  calc along 0 p f (along 0 q g x)
    _ = alongPlane 0 p q (fun N1 N2 y k1 k2 => f N1 (fun n1 => g N2 (y n1) k2) k1) x :=
      (alongPlane_eq_along_along 0 (fun _ _ _ _ _ => rfl) hp hq hpq).symm
    _ = alongPlane 0 q p (fun N2 N1 y k2 k1 => f N1 (fun n1 => g N2 (fun n2 => y n2 n1) k2) k1) x :=
      alongPlane_swap 0 _ hp hq hpq
    _ = along 0 q g (along 0 p f x) :=
      alongPlane_eq_along_along 0 (fun _ _ y k2 k1 => hf.swap hg (fun n1 n2 => y n2 n1) k1 k2) hq hp hpq.symm

/-! ### The 1-D transforms along different axes commute -/

theorem nrm_weighsLine : WeighsLine (nrm ideal) :=
  ⟨fun N k n => if n = k then (nrmScale N k.val)⁻¹ else 0, fun N x k => by simp [nrm_eq_div, div_eq_mul_inv]⟩

theorem fwdLine_weighsLine (nm : Norm) : WeighsLine (fwdLine ideal nm) := by
  cases nm with
  | none =>
    refine ⟨fun N k n => 2 * dctCos N k.val n.val, fun N x k => ?_⟩
    rw [fwdLine, dct1_eq_sum, Finset.mul_sum]
    exact Finset.sum_congr rfl fun n _ => by ring
  | ortho =>
    refine ⟨fun N k n => 2 * dctCos N k.val n.val / nrmScale N k.val, fun N x k => ?_⟩
    rw [fwdLine, nrm_eq_div, dct1_eq_sum, Finset.mul_sum, Finset.sum_div]
    exact Finset.sum_congr rfl fun n _ => by ring

theorem idct1_weighsLine (nm : Norm) : WeighsLine (idct1 ideal nm) := by
  refine ⟨fun N m k => 2 * dctCos N k.val m.val / nrmScale N k.val ^ passes nm, fun N X m => ?_⟩
  rw [idct1_eq_sum, Finset.mul_sum]
  refine Finset.sum_congr rfl fun k _ => ?_
  rw [nrmPasses_eq_div]
  ring

section
variable {p q : Nat} {x : TArray ℝ} (hp : p < x.shape.length) (hq : q < x.shape.length) (hpq : p ≠ q)
include hp hq hpq

theorem fwd1_comm (nm : Norm) : fwd1 ideal nm p (fwd1 ideal nm q x) = fwd1 ideal nm q (fwd1 ideal nm p x) := by
  rw [fwd1_eq_along ideal nm hq, fwd1_eq_along ideal nm hp, fwd1_eq_along ideal nm (by exact hp),
    fwd1_eq_along ideal nm (by exact hq)]
  exact (fwdLine_weighsLine nm).along_comm (fwdLine_weighsLine nm) hp hq hpq

theorem idct1Along_comm (nm : Norm) :
    idct1Along ideal nm p (idct1Along ideal nm q x) = idct1Along ideal nm q (idct1Along ideal nm p x) :=
  (idct1_weighsLine nm).along_comm (idct1_weighsLine nm) hp hq hpq

/-- A normalisation pass along one axis may be moved before the transform along another. -/
theorem nrmAlong_fwd1_comm (nm : Norm) : nrmAlong ideal q (fwd1 ideal nm p x) = fwd1 ideal nm p (nrmAlong ideal q x) := by
  rw [fwd1_eq_along ideal nm hp, fwd1_eq_along ideal nm (by exact hp)]
  exact nrm_weighsLine.along_comm (fwdLine_weighsLine nm) hq hp hpq.symm

end

/-! ### The 2-D fast path (rules R170, R173, R174) -/

/-- The mirrored position is minus the position, modulo the extent. -/
theorem mirror_add_self {N k : Nat} (h : k < N) : ∃ c, (N - k) % N + k = N * c := by
  rcases Nat.eq_zero_or_pos k with rfl | hpos
  · exact ⟨0, by simp⟩
  · exact ⟨1, by rw [Nat.mod_eq_of_lt (by omega)]; omega⟩

/-- The FFT of a real line at the mirrored position is the conjugate of the one at the position. -/
theorem toComplex_fft_mirror {N : Nat} (v : Fin N → ℝ) (k : Fin N) :
    toComplex (ideal.fft N (fun j => promote ideal (v j)) ⟨(N - k.val) % N, Nat.mod_lt _ k.pos⟩) =
      (starRingEnd ℂ) (toComplex (ideal.fft N (fun j => promote ideal (v j)) k)) := by
  obtain ⟨c, hc⟩ := mirror_add_self k.isLt
  have hN : (N : ℝ) ≠ 0 := by exact_mod_cast k.pos.ne'
  have hmirror : (((N - k.val) % N : Nat) : ℝ) = N * c - k.val := by
    rw [eq_sub_iff_add_eq]
    exact_mod_cast hc
  rw [toComplex_fft, toComplex_fft, map_sum]
  refine Finset.sum_congr rfl fun n _ => ?_
  have hangle : -(2 * Real.pi * n.val * (N * c - k.val) / N) =
      2 * Real.pi * n.val * k.val / N - (n.val * c : Nat) * (2 * Real.pi) := by
    push_cast
    field_simp
    ring
  rw [map_mul, toComplex_promote, Complex.conj_ofReal, ← Complex.exp_conj, map_mul, Complex.conj_ofReal, Complex.conj_I,
    hmirror, hangle]
  refine congrArg _ ((congrArg Complex.exp ?_).trans (Complex.exp_periodic.sub_nat_mul_eq (n.val * c)))
  push_cast
  ring

/-- The twiddle combination of rule R170 on a real line is twice the real part of the twiddle product, with no imaginary part:
the two terms are conjugates of each other. -/
theorem twiddle_add_mirror {N : Nat} (v : Fin N → ℝ) (k : Fin N) :
    toComplex (W ideal N k.val) * toComplex (ideal.fft N (fun j => promote ideal (v j)) k) +
      toComplex (W ideal N (-(k.val : Int))) *
        toComplex (ideal.fft N (fun j => promote ideal (v j)) ⟨(N - k.val) % N, Nat.mod_lt _ k.pos⟩) =
      (2 * (twiddleMul ideal N (ideal.fft N fun j => promote ideal (v j)) k).re : ℝ) := by
  rw [W_neg, toComplex_conj, toComplex_fft_mirror, ← map_mul, Complex.add_conj, twiddleMul, ← toComplex_re,
    toComplex_mul, mul_comm (toComplex (W ideal N k.val))]

/-- The plane FFT is the line FFT along the first axis of the line FFTs along the second (rule R205). -/
theorem toComplex_fft2_eq_sum (N1 N2 : Nat) (z : Fin N1 → Fin N2 → Cx ℝ) (k1 : Fin N1) (k2 : Fin N2) :
    toComplex (ideal.fft2 N1 N2 z k1 k2) = ∑ n1 : Fin N1, toComplex (ideal.fft N2 (z n1) k2) *
      Complex.exp ((-(2 * Real.pi * n1.val * k1.val / N1) : ℝ) * Complex.I) := by
  simp only [toComplex_fft2, toComplex_fft, Finset.sum_mul]
  refine Finset.sum_congr rfl fun n1 _ => Finset.sum_congr rfl fun n2 _ => ?_
  rw [mul_assoc (toComplex _), ← Complex.exp_add]
  congr 2
  push_cast
  ring

/-- The fast-path kernel on a plane is the forward kernel along the second axis and then along the first. -/
theorem dct2_eq_dct1_dct1 (N1 N2 : Nat) (x : Fin N1 → Fin N2 → ℝ) (k1 : Fin N1) (k2 : Fin N2) :
    dct2 ideal N1 N2 x k1 k2 = dct1 ideal N1 (fun n1 => dct1 ideal N2 (x n1) k2) k1 := by
  have hline : ∀ j1, ilv N1 (fun n1 => dct1 ideal N2 (x n1) k2) j1 = 2 * (twiddleMul ideal N2 (ideal.fft N2 fun j2 =>
      promote ideal (ilv N2 (fun n2 => ilv N1 (fun n1 => x n1 n2) j1) j2)) k2).re := fun j1 => by
    simp only [ilv_apply N1]
    rfl
  refine congrArg (fun c : Cx ℝ => ideal.mul (ideal.ofNat 2) c.re) (toComplex_inj ?_)
  rw [twiddleMul, toComplex_mul, toComplex_mul, toComplex_add, toComplex_mul, toComplex_mul, mirror, toComplex_fft2_eq_sum,
    toComplex_fft2_eq_sum, toComplex_fft, mul_comm, Finset.mul_sum, Finset.mul_sum, ← Finset.sum_add_distrib]
  refine congrArg (· * _) (Finset.sum_congr rfl fun j1 _ => ?_)
  rw [hline, toComplex_promote, ← twiddle_add_mirror]
  ring

/-- Without normalisation the fast path is the forward kernel along the second axis and then along the first. -/
theorem alongPlane_dct2 {p q : Nat} {x : TArray ℝ} (hp : p < x.shape.length) (hq : q < x.shape.length) (hpq : p ≠ q) :
    alongPlane 0 p q (dct2 ideal) x = dct1Along ideal p (dct1Along ideal q x) :=
  alongPlane_eq_along_along 0 dct2_eq_dct1_dct1 hp hq hpq

/-- The fast path is the 1-D transform along the second axis and then along the first (rule R173). -/
theorem dct2d_eq_fwd1_fwd1 (nm : Norm) {p q : Nat} {x : TArray ℝ} (hp : p < x.shape.length) (hq : q < x.shape.length)
    (hpq : p ≠ q) : dct2d ideal nm p q x = fwd1 ideal nm p (fwd1 ideal nm q x) := by
  cases nm with
  | none => exact alongPlane_dct2 hp hq hpq
  | ortho =>
    calc dct2d ideal .ortho p q x
      _ = nrmAlong ideal q (fwd1 ideal .ortho p (dct1Along ideal q x)) :=
        congrArg (fun y => nrmAlong ideal q (nrmAlong ideal p y)) (alongPlane_dct2 hp hq hpq)
      _ = fwd1 ideal .ortho p (fwd1 ideal .ortho q x) := nrmAlong_fwd1_comm (x := dct1Along ideal q x) hp hq hpq .ortho

/-- Settles O57: the plane FFT splits into two line FFTs, and transforms along different axes commute. -/
theorem fastPathIsTwoPasses : Obligations.FastPathIsTwoPasses := by
  intro nm p q x hp hq hpq
  have h := dct2d_eq_fwd1_fwd1 nm hp hq hpq
  exact ⟨h, h.trans (fwd1_comm hp hq hpq nm)⟩

/-! ### The compositions over a list of axes (rules R168, R169, R176, R178, R179) -/

/-- Steps along axes that keep the shape and commute along different axes give the same array in any order of the axes. -/
theorem foldl_axes_perm {α : Type} {t : TArray α → Nat → TArray α} (hshape : ∀ x a, (t x a).shape = x.shape)
    (hcomm : ∀ x p q, p < x.shape.length → q < x.shape.length → p ≠ q → t (t x p) q = t (t x q) p) {axes axes' : List Nat}
    (h : axes.Perm axes') (x : TArray α) (hlt : ∀ a ∈ axes, a < x.shape.length) : axes.foldl t x = axes'.foldl t x := by
  induction h generalizing x with
  | nil => rfl
  | cons a h ih => exact ih (t x a) fun b hb => by rw [hshape]; exact hlt b (List.mem_cons_of_mem a hb)
  | swap p q axes =>
    by_cases hpq : q = p
    · rw [hpq]
    · have hq : q < x.shape.length := hlt q List.mem_cons_self
      have hp : p < x.shape.length := hlt p (List.mem_cons_of_mem q List.mem_cons_self)
      simp only [List.foldl_cons, hcomm x q p hq hp hpq]
  | trans h1 h2 ih1 ih2 => exact (ih1 x hlt).trans (ih2 x fun a ha => hlt a (h1.mem_iff.2 ha))

/-- The forward composition is the 1-D transforms along the axes in list order (rule R178). -/
theorem fwd_eq_foldl (nm : Norm) : ∀ {axes : List Nat} {x : TArray ℝ}, axes.Nodup → (∀ a ∈ axes, a < x.shape.length) →
    fwd ideal nm axes x = axes.foldl (fun y a => fwd1 ideal nm a y) x
  | [], _, _, _ => rfl
  | [_], _, _, _ => rfl
  | p :: q :: axes, x, hnodup, hlt => by
    simp only [List.nodup_cons, List.forall_mem_cons] at hnodup hlt
    obtain ⟨hp, -, haxes⟩ := hnodup
    obtain ⟨hpx, hqx, hrest⟩ := hlt
    rw [fwd, fwd_eq_foldl nm haxes (by simpa using hrest),
      (fastPathIsTwoPasses nm p q x hpx hqx fun h => hp (h ▸ List.mem_cons_self)).2]
    rfl

theorem inv_eq_foldl {α : Type} (num : Numerics α) (nm : Norm) : ∀ (axes : List Nat) (x : TArray α),
    inv num nm axes x = axes.foldl (fun y a => idct1Along num nm a y) x
  | [], _ => rfl
  | a :: axes, x => inv_eq_foldl num nm axes (idct1Along num nm a x)

/-- Settles O58: both compositions are the 1-D transforms one after the other, which commute along different axes. -/
theorem compositionsSeparable : Obligations.CompositionsSeparable := by
  intro nm axes axes' x hnodup hlt hperm
  rw [fwd_eq_foldl nm hnodup hlt, inv_eq_foldl, inv_eq_foldl]
  exact ⟨foldl_axes_perm (fun y a => fwd1_shape ideal nm a y) (fun _ _ _ hp hq hpq => fwd1_comm hq hp hpq.symm nm) hperm x hlt,
    foldl_axes_perm (fun y a => idct1Along_shape ideal nm a y) (fun _ _ _ hp hq hpq => idct1Along_comm hq hp hpq.symm nm)
      hperm x hlt⟩

/-- The transform along the first axis of the list may be made last. -/
theorem fwd_cons (nm : Norm) {a : Nat} {axes : List Nat} {x : TArray ℝ} (hnodup : (a :: axes).Nodup)
    (hlt : ∀ b ∈ a :: axes, b < x.shape.length) : fwd ideal nm (a :: axes) x = fwd1 ideal nm a (fwd ideal nm axes x) := by
  rw [fwd_eq_foldl nm hnodup.of_cons fun b hb => hlt b (List.mem_cons_of_mem a hb),
    (compositionsSeparable nm (a :: axes) (axes ++ [a]) x hnodup hlt (List.perm_append_singleton a axes).symm).1,
    List.foldl_append]
  rfl

/-- Settles O59: by induction on the list, the inverse transform along its first axis undoes the forward one made last. -/
theorem roundTripAllAxes : Obligations.RoundTripAllAxes := by
  intro nm axes x hnodup hlt hfull
  induction axes with
  | nil => rfl
  | cons a axes ih =>
    have hrest : ∀ b ∈ axes, b < x.shape.length := fun b hb => hlt b (List.mem_cons_of_mem a hb)
    obtain ⟨hshape, hlen⟩ := fwd_full ideal nm axes x hfull
    rw [fwd_cons nm hnodup hlt, inv, idct1Along_fwd1 nm (by rw [hshape]; exact hlt a List.mem_cons_self)
      (by rw [hlen, hshape])]
    exact ih hnodup.of_cons hrest

end Sys2Proof.Machine
end

section
/-! PROOFS. The unit `norm_scaler` in the ideal numerics (spec/45_norm_scaler.md): what the passes divide by (rules R190, R191,
R193), and that the normalised forward transform preserves energy (rule R193), because the normalised inverse transform is both
its transpose and its inverse. -/

namespace Sys2Proof.Machine

/-- Two passes divide by whole numbers, with no square root left (rule R193). -/
theorem nrmPasses_two_eq (N : Nat) (y : Fin N → ℝ) (k : Fin N) :
    nrmPasses ideal N 2 y k = y k / (if k.val = 0 then 4 * N else 2 * N : Nat) := by
  rw [nrmPasses_eq_div, nrmScale_sq]
  push_cast
  rfl

/-- A pass along an axis divides each element by the factor of its coordinate on that axis (rule R191). -/
theorem at_nrmAlong {a : Nat} {y : TArray ℝ} {i : List Nat} (hi : inBounds y.shape i = true) (ha : a < y.shape.length) :
    (nrmAlong ideal a y).at 0 i = y.at 0 i / nrmScale (y.shape.getD a 0) (i.getD a 0) := by
  have hself : i.set a (i.getD a 0) = i := set_getD_self (by rwa [inBounds_length hi])
  calc (nrmAlong ideal a y).at 0 i
    _ = y.at 0 (i.set a (i.getD a 0)) / nrmScale (y.shape.getD a 0) (i.getD a 0) :=
      (at_along (0 : ℝ) (nrm ideal) hi ha).trans (nrm_eq_div _ _ _)
    _ = y.at 0 i / nrmScale (y.shape.getD a 0) (i.getD a 0) := by rw [hself]

/-- Settles O49: one pass by its definition, two by squaring the factor, and on an array by the coordinate of each element. -/
theorem normPasses : Obligations.NormPasses :=
  ⟨fun N y k => ⟨nrm_eq_div N y k, nrmPasses_two_eq N y k⟩, fun _ _ => ⟨rfl, fun _ hi ha => at_nrmAlong hi ha⟩⟩

/-- The normalised inverse transform is the transpose of the normalised forward one. -/
theorem sum_mul_nrm_dct1 (N : Nat) (x y : Fin N → ℝ) :
    ∑ k : Fin N, y k * nrm ideal N (dct1 ideal N x) k = ∑ n : Fin N, idct1 ideal .ortho N y n * x n :=
  calc ∑ k : Fin N, y k * nrm ideal N (dct1 ideal N x) k
    _ = ∑ k : Fin N, ∑ n : Fin N, 2 * (y k / nrmScale N k.val * dctCos N k.val n.val) * x n := by
      refine Finset.sum_congr rfl fun k _ => ?_
      rw [nrm_eq_div, dct1_eq_sum, Finset.mul_sum, Finset.sum_div, Finset.mul_sum]
      exact Finset.sum_congr rfl fun n _ => by ring
    _ = ∑ n : Fin N, ∑ k : Fin N, 2 * (y k / nrmScale N k.val * dctCos N k.val n.val) * x n := Finset.sum_comm
    _ = ∑ n : Fin N, idct1 ideal .ortho N y n * x n := by
      simp only [idct1_eq_sum, passes, nrmPasses_eq_div, pow_one, Finset.mul_sum, Finset.sum_mul]

/-- Settles O55: the energy of the transform is the product of the line with the transform brought back by its transpose, which
is the line itself (`idct1_fwdLine`). -/
theorem orthoPreservesEnergy : Obligations.OrthoPreservesEnergy := by
  intro N x
  have hback : idct1 ideal .ortho N (nrm ideal N (dct1 ideal N x)) = x := idct1_fwdLine .ortho N x
  simp only [sq]
  rw [sum_mul_nrm_dct1, hback]

end Sys2Proof.Machine
end

section
/-! PROOFS. The port to the FFT collaborator in the ideal numerics (spec/46_fft_port.md): the ideal collaborator has the three
named properties of rule R206, and its line FFT and inverse FFT are Mathlib's discrete Fourier transform on `ZMod N` and the
inverse of it, which is why the one undoes the other. -/

namespace Sys2Proof.Machine

/-- The ideal FFT is the sum of rule R203 in the record's own arithmetic. -/
theorem ideal_fftIsDft : FftIsDft ideal := by
  intro N z k
  have hphase : ∀ n : Fin N, toComplex (ideal.twiddle N (4 * (n.val : Int) * (k.val : Int))) =
      Complex.exp ((-(2 * Real.pi * n.val * k.val / N) : ℝ) * Complex.I) := fun n => by
    refine (toComplex_W N _).trans ?_
    congr 2; push_cast; ring
  apply toComplex_inj
  simp only [dft, toComplex_fft, toComplex_sum, toComplex_mul, hphase]

/-- The ideal inverse FFT is the sum of rule R204 in the record's own arithmetic. -/
theorem ideal_ifftIsIdft : IfftIsIdft ideal := by
  intro N Z n
  have hphase : ∀ k : Fin N, toComplex (ideal.twiddle N (-(4 * (n.val : Int) * (k.val : Int)))) =
      Complex.exp ((2 * Real.pi * n.val * k.val / N : ℝ) * Complex.I) := fun k => by
    refine (toComplex_W N _).trans ?_
    congr 2; push_cast; ring
  have hscale : toComplex (promote ideal (ideal.div (ideal.ofNat 1) (ideal.ofNat N))) = 1 / N := by
    rw [toComplex_promote]; simp [ideal]
  apply toComplex_inj
  simp only [idft, toComplex_ifft, toComplex_sum, toComplex_mul, hphase, hscale]

/-- Transposing the plane transposes its FFT. -/
theorem ideal_fft2_transpose (N1 N2 : Nat) (z : Fin N1 → Fin N2 → Cx ℝ) (k1 : Fin N1) (k2 : Fin N2) :
    ideal.fft2 N1 N2 z k1 k2 = ideal.fft2 N2 N1 (fun n2 n1 => z n1 n2) k2 k1 := by
  apply toComplex_inj
  rw [toComplex_fft2, toComplex_fft2, Finset.sum_comm]
  simp only [add_comm]

/-- The ideal plane FFT is the line FFT along the first axis of the line FFTs along the second (rule R205). -/
theorem ideal_fft2_eq_fft_fft (N1 N2 : Nat) (z : Fin N1 → Fin N2 → Cx ℝ) (k1 : Fin N1) (k2 : Fin N2) :
    ideal.fft2 N1 N2 z k1 k2 = ideal.fft N1 (fun n1 => ideal.fft N2 (z n1) k2) k1 :=
  toComplex_inj ((toComplex_fft2_eq_sum N1 N2 z k1 k2).trans (toComplex_fft N1 _ k1).symm)

theorem ideal_fft2IsFftFft : Fft2IsFftFft ideal := fun N1 N2 z k1 k2 =>
  ⟨ideal_fft2_eq_fft_fft N1 N2 z k1 k2, (ideal_fft2_transpose N1 N2 z k1 k2).trans (ideal_fft2_eq_fft_fft N2 N1 _ k2 k1)⟩

/-! ### The line FFT as the discrete Fourier transform on `ZMod N` -/

/-- The residue of a position is its number. -/
theorem finEquiv_eq_val : ∀ {N : Nat} [NeZero N] (n : Fin N), ZMod.finEquiv N n = (n.val : ZMod N)
  | _ + 1, _, n => (Fin.cast_val_eq_self n).symm

/-- A line as a function of the residue of its position. -/
noncomputable def zmodLine (N : Nat) [NeZero N] (z : Fin N → Cx ℝ) (j : ZMod N) : ℂ :=
  toComplex (z ((ZMod.finEquiv N).symm j))

section
variable {N : Nat} [NeZero N]

@[simp] theorem zmodLine_finEquiv (z : Fin N → Cx ℝ) (n : Fin N) : zmodLine N z (ZMod.finEquiv N n) = toComplex (z n) := by
  rw [zmodLine, RingEquiv.symm_apply_apply]

/-- A function of the residues is a line when it is one at the residue of each position. -/
theorem zmodLine_eq_iff {z : Fin N → Cx ℝ} {Φ : ZMod N → ℂ} :
    zmodLine N z = Φ ↔ ∀ n, toComplex (z n) = Φ (ZMod.finEquiv N n) := by
  rw [funext_iff, (ZMod.finEquiv N).surjective.forall]
  simp only [zmodLine_finEquiv]

theorem sum_zmod_eq (f : ZMod N → ℂ) : ∑ j, f j = ∑ n : Fin N, f (ZMod.finEquiv N n) :=
  (Equiv.sum_comp (ZMod.finEquiv N).toEquiv f).symm

/-- The phase of rule R204 is the standard additive character at the product of the two residues. -/
theorem stdAddChar_finEquiv_mul (n k : Fin N) : ZMod.stdAddChar (ZMod.finEquiv N n * ZMod.finEquiv N k) =
    Complex.exp ((2 * Real.pi * n.val * k.val / N : ℝ) * Complex.I) := by
  have hprod : ZMod.finEquiv N n * ZMod.finEquiv N k = ((n.val * k.val : Int) : ZMod N) := by
    simp [finEquiv_eq_val]
  rw [hprod, ZMod.stdAddChar_coe]
  congr 1; push_cast; ring

theorem zmodLine_fft (z : Fin N → Cx ℝ) : zmodLine N (ideal.fft N z) = ZMod.dft (zmodLine N z) := by
  refine zmodLine_eq_iff.2 fun k => ?_
  rw [toComplex_fft, ZMod.dft_apply, sum_zmod_eq]
  refine Finset.sum_congr rfl fun n _ => ?_
  rw [AddChar.map_neg_eq_inv, stdAddChar_finEquiv_mul, zmodLine_finEquiv, ← Complex.exp_neg, smul_eq_mul, mul_comm,
    Complex.ofReal_neg, neg_mul]

theorem zmodLine_ifft (Z : Fin N → Cx ℝ) : zmodLine N (ideal.ifft N Z) = ZMod.dft.symm (zmodLine N Z) := by
  refine zmodLine_eq_iff.2 fun n => ?_
  rw [toComplex_ifft, ZMod.invDFT_apply, sum_zmod_eq, one_div, smul_eq_mul]
  refine congrArg _ (Finset.sum_congr rfl fun k _ => ?_)
  rw [mul_comm (ZMod.finEquiv N k), stdAddChar_finEquiv_mul, zmodLine_finEquiv, smul_eq_mul, mul_comm]

end

/-- The inverse FFT undoes the FFT on every line, by Fourier inversion on `ZMod N`; a line with no position has nothing to
undo. -/
theorem ideal_ifft_fft (N : Nat) (z : Fin N → Cx ℝ) (n : Fin N) : ideal.ifft N (ideal.fft N z) n = z n := by
  have : NeZero N := ⟨n.pos.ne'⟩
  have hline : zmodLine N (ideal.ifft N (ideal.fft N z)) = zmodLine N z := by
    rw [zmodLine_ifft, zmodLine_fft, LinearEquiv.symm_apply_apply]
  apply toComplex_inj
  rw [← zmodLine_finEquiv, hline, zmodLine_finEquiv]

/-- Settles O50: the sums and the two orders of the plane FFT term by term, and Fourier inversion on a line. -/
theorem idealCollaborator : Obligations.IdealCollaborator :=
  ⟨ideal_fftIsDft, ideal_ifftIsIdft, ideal_fft2IsFftFft, ideal_ifft_fft⟩

end Sys2Proof.Machine
end

section
/-! PROOFS. The errors of spec/60_exceptions.md: which check of rule R229 a command fails, fault entry and completion (rules
R230, R234), and how long a fault lasts (rules R231, R232). -/

namespace Sys2Proof.Machine

/-! ### The errors of the word and of an empty source (rules R221, R224 to R226, R229) -/

theorem checkWord_of_type_ne {f : Fields} (ht : f.type ≠ 2#4) : checkWord true f = .error .eType :=
  if_pos ht

theorem checkWord_of_norm_unrecognised {f : Fields} (ht : f.type = 2#4) (hn : f.norm = 2#2 ∨ f.norm = 3#2) :
    checkWord true f = .error .eNorm := by
  rw [checkWord, if_neg (by decide), if_neg (not_not.2 ht)]
  rcases hn with hn | hn <;> rw [hn] <;> rfl

/-- An error of the word is the error of the command, whatever the descriptors and the source hold. -/
theorem commandResult_of_checkWord_error {α : Type} (p : Params α) {i : Instr} {e : Cause}
    (hw : checkWord i.wf i.fields = .error e) (axis len : Vector Word 8) (src : AReg α) :
    commandResult p i axis len src = .error e := by
  cases i with
  | dct f | idct f =>
    rw [Instr.fields] at hw
    simp only [commandResult, dctCommand, idctCommand, command1, hw]
  | dctn f | idctn f =>
    rw [Instr.fields] at hw
    simp only [commandResult, dctnCommand, idctnCommand, commandN, hw]

/-- Once the word has passed, an `Empty` source gives `E_EMPTY`, whatever the descriptors hold (rule R226). -/
theorem commandResult_of_empty {α : Type} (p : Params α) {i : Instr} {nm : Norm}
    (hw : checkWord i.wf i.fields = .ok nm) (axis len : Vector Word 8) :
    commandResult p i axis len .empty = .error .eEmpty := by
  cases i with
  | dct f | idct f =>
    rw [Instr.fields] at hw
    simp only [commandResult, dctCommand, idctCommand, command1, hw, checkSource]
  | dctn f | idctn f =>
    rw [Instr.fields] at hw
    simp only [commandResult, dctnCommand, idctnCommand, commandN, hw, checkSource]

/-- Settles O21: the first three clauses are errors of the word, and in the fourth the word passes. -/
theorem wordErrorsInOrder : Obligations.WordErrorsInOrder := by
  intro p i axis len src
  refine ⟨fun hwf => ?_, fun hwf ht => ?_, fun hwf ht hn => ?_, fun hwf ht hn hsrc => ?_⟩
  · exact commandResult_of_checkWord_error p (by rw [hwf]; rfl) axis len src
  · exact commandResult_of_checkWord_error p (by rw [hwf]; exact checkWord_of_type_ne ht) axis len src
  · exact commandResult_of_checkWord_error p (by rw [hwf]; exact checkWord_of_norm_unrecognised ht hn) axis len src
  · obtain ⟨nm, hnm⟩ := exists_normGiven hn
    rw [hsrc]
    exact commandResult_of_empty p (by rw [hwf]; exact checkWord_eq_ok ht hnm) axis len

/-! ### The errors of `DCT` and `IDCT` on an array (rules R223, R227 to R229) -/

/-- A command along one axis whose word is in order gives the error of its shape checks, or the kernel's result on the adapted
array. -/
theorem command1_eq_map_check1 {α : Type} {p : Params α} {legal : Bool} {f : Fields} {nm : Norm}
    (hw : checkWord legal f = .ok nm) (kernel : Norm → Nat → TArray α → TArray α) (axis len : Vector Word 8)
    (x : TArray α) : command1 p legal kernel f axis len (.array x) =
      (check1 p.maxElems f axis len x.shape).map fun c => kernel nm c.1 (adapt p.num x c.1 c.2) := by
  simp only [command1, hw, checkSource]
  cases check1 p.maxElems f axis len x.shape <;> rfl

/-- `DCT` and `IDCT` are commands along one axis, each with a kernel that keeps the shape. -/
theorem commandResult_eq_command1 {α : Type} (p : Params α) {f : Fields} {i : Instr} (hi : i = .dct f ∨ i = .idct f) :
    ∃ kernel : Norm → Nat → TArray α → TArray α, (∀ nm a x, (kernel nm a x).shape = x.shape) ∧
      ∀ axis len src, commandResult p i axis len src = command1 p i.wf kernel f axis len src := by
  rcases hi with rfl | rfl
  · exact ⟨fwd1 p.num, fwd1_shape p.num, fun _ _ _ => rfl⟩
  · exact ⟨idct1Along p.num, idct1Along_shape p.num, fun _ _ _ => rfl⟩

section
variable {m : Option Nat} {f : Fields} {axis len : Vector Word 8} {sh : List Nat}

theorem check1_of_canon_eq_none (hc : canon (axisRaw1 f axis) sh.length = none) :
    check1 m f axis len sh = .error .eAxis := by
  simp only [check1, hc]

/-- With the axis in order the checks left are those of a length 0 and of the capacity. -/
theorem check1_of_canon_eq_some {a : Nat} (hc : canon (axisRaw1 f axis) sh.length = some a) :
    check1 m f axis len sh =
      if f.lg = true ∧ targetLen f len sh a = 0 then .error .eShape
      else if fits m (shapeSize (sh.set a (targetLen f len sh a))) = false then .error .eCap
      else .ok (a, targetLen f len sh a) := by
  simp only [check1, hc]

/-- A given target length is 0 exactly when `LEN0` is (rule R228). -/
theorem targetLen_eq_zero_iff (hlg : f.lg = true) (a : Nat) : targetLen f len sh a = 0 ↔ len[0] = 0#32 := by
  rw [targetLen, if_pos hlg, lenValue, BitVec.toNat_eq]
  rfl

end

/-- Settles O22: each clause is the branch of the shape checks that its premises lead to. -/
theorem axisErrorsInOrder : Obligations.AxisErrorsInOrder := by
  intro p f axis len x i hi hwf ht hnorm _ r raw a n
  obtain ⟨kernel, hshape, hcmd⟩ := commandResult_eq_command1 p hi
  obtain ⟨nm, hnm⟩ := exists_normGiven hnorm
  rw [hcmd, hwf, command1_eq_map_check1 (checkWord_eq_ok ht hnm)]
  have hchecks : -r ≤ raw → raw < r → check1 p.maxElems f axis len x.shape =
      if f.lg = true ∧ n = 0 then .error .eShape
      else if fits p.maxElems (shapeSize (x.shape.set a n)) = false then .error .eCap else .ok (a, n) :=
    fun hlo hhi => check1_of_canon_eq_some (canon_eq_axisOf hlo hhi)
  have hzero : f.lg = true → (n = 0 ↔ len[0] = 0#32) := fun hlg => targetLen_eq_zero_iff hlg a
  have hlen : (f.lg = true → len[0] ≠ 0#32) → ¬(f.lg = true ∧ n = 0) := fun h0 ⟨hlg, hn⟩ => h0 hlg ((hzero hlg).1 hn)
  refine ⟨fun hout => ?_, fun hlo hhi hlg h0 => ?_, fun hlo hhi h0 hfit => ?_, fun hlo hhi h0 hfit => ?_⟩
  · rw [check1_of_canon_eq_none (canon_of_outside hout)]
    rfl
  · rw [hchecks hlo hhi, if_pos ⟨hlg, (hzero hlg).2 h0⟩]
    rfl
  · rw [hchecks hlo hhi, if_neg (hlen h0), if_pos hfit]
    rfl
  · rw [hchecks hlo hhi, if_neg (hlen h0), if_neg (ne_false_of_eq_true hfit)]
    exact ⟨_, rfl, by rw [hshape, adapt_shape]⟩

/-! ### No check looks at an element (rules R208, R209, R229) -/

theorem except_map_eq_error_iff {ε β γ : Type} (g : β → γ) (r : Except ε β) (e : ε) : r.map g = .error e ↔ r = .error e := by
  cases r <;> simp [Except.map]

section
variable {α : Type} (p : Params α) (legal : Bool) (f : Fields) (axis len : Vector Word 8) (x : TArray α) (e : Cause)

/-- On an array a command along one axis fails in its word, or in the checks of the shape alone. -/
theorem command1_array_eq_error_iff (kernel : Norm → Nat → TArray α → TArray α) :
    command1 p legal kernel f axis len (.array x) = .error e ↔ checkWord legal f = .error e ∨
      (∃ nm, checkWord legal f = .ok nm) ∧ check1 p.maxElems f axis len x.shape = .error e := by
  cases hw : checkWord legal f with
  | error e' => simp [command1, hw]
  | ok nm => simp [command1_eq_map_check1 hw, except_map_eq_error_iff]

/-- On an array a command over a list of axes fails in its word, or in the checks of the shape alone. -/
theorem commandN_array_eq_error_iff (kernel : Norm → List Nat → TArray α → TArray α) :
    commandN p legal kernel f axis len (.array x) = .error e ↔ checkWord legal f = .error e ∨
      (∃ nm, checkWord legal f = .ok nm) ∧ checkN p.maxElems f axis len x.shape = .error e := by
  cases hw : checkWord legal f with
  | error e' => simp [commandN, hw]
  | ok nm => simp [commandN_eq_map_checkN hw, except_map_eq_error_iff]

end

/-- Settles O28: the checks read the word, the descriptors, the shape and the capacity, which the two sides share. -/
theorem errorsIgnoreElements : Obligations.ErrorsIgnoreElements := by
  intro α β p p' i axis len x x' hcap hshape e
  cases i with
  | dct f | idct f =>
    simp only [commandResult, dctCommand, idctCommand, command1_array_eq_error_iff, hcap, hshape]
  | dctn f | idctn f =>
    simp only [commandResult, dctnCommand, idctnCommand, commandN_array_eq_error_iff, hcap, hshape]

/-! ### Fault entry and completion (rules R220, R230, R234) -/

theorem Cause.code_ne_zero (e : Cause) : e.code ≠ 0#4 := by cases e <;> decide

/-- A command that has an error takes it by fault entry. -/
theorem exec_eq_raise_of_error {i : Instr} {s : State} {e : Cause}
    (h : commandResult Config.params i s.axis s.len (s.readA i.fields.rs) = .error e) :
    exec i s = .next { s with toEngine := s.toEngine.raise e } := by
  rw [exec_eq, h]
  rfl

/-- Settles O24: fault entry, with the code of each of the seven errors. -/
theorem faultEntry : Obligations.FaultEntry := by
  intro i s e h
  rw [exec_eq_raise_of_error h]
  cases e <;> rfl

/-- Settles O25: a command completes with its result or takes its error by fault entry. -/
theorem nothingHalfDone : Obligations.NothingHalfDone := by
  intro i s
  cases h : commandResult Config.params i s.axis s.len (s.readA i.fields.rs) with
  | ok y =>
    exact ⟨_, exec_eq_complete_of_ok h, .inl ⟨y, Engine.readA_complete_self _ _ y, rfl, rfl, rfl, rfl⟩⟩
  | error e => exact ⟨_, exec_eq_raise_of_error h, .inr ⟨rfl, rfl, rfl, rfl, e.code_ne_zero⟩⟩

/-! ### The machine never stops by itself (rules R234, R242, R270) -/

theorem execute_next (w : Word) (s : State) : ∃ t, execute w s = .next t := by
  rcases execute_cases w s with ⟨i, y, -, -, h⟩ | ⟨e, h⟩
  · exact ⟨_, h⟩
  · exact ⟨_, h⟩

theorem issue_next (w : Word) (s : State) : ∃ t, issue w s = .next t := by
  rcases issue_cases w s with ⟨-, h⟩ | ⟨-, h⟩
  · exact ⟨s, h⟩
  · rw [h]
    exact execute_next w _

/-- Every action of the host has a next state, but for a load of a value no array register can hold (rule R23). -/
theorem perform_next_or_refused (a : HostAction Elem) (s : State) : (∃ t, perform a s = .next t) ∨
    ∃ i v, a = .loadArray i v ∧ v.wf Config.maxElems = false ∧ perform a s = .refused .notAMove := by
  cases a with
  | loadArray i v =>
    cases hv : v.wf Config.maxElems with
    | true => exact .inl ⟨_, by rw [perform_load, if_pos hv]⟩
    | false => exact .inr ⟨i, v, rfl, hv, by rw [perform_load, if_neg (by simp [hv])]⟩
  | writeReg r v =>
    by_cases hr : r = .cmd
    · subst hr
      exact .inl (issue_next v s)
    · exact .inl ⟨_, perform_write hr v s⟩
  | readArray i => exact .inl ⟨_, perform_read i s⟩
  | readReg r => exact .inl ⟨_, perform_readReg r s⟩
  | reset => exact .inl ⟨_, perform_reset s⟩

/-- Settles O34: a step is idle or the host's next action. -/
theorem onlyBadLoadStops : Obligations.OnlyBadLoadStops := by
  intro s
  cases hp : s.pending with
  | nil => exact .inl ⟨s, step_idle hp⟩
  | cons a rest =>
    rw [step_action hp]
    refine (perform_next_or_refused a _).imp_right ?_
    rintro ⟨i, v, rfl, hv, h⟩
    exact ⟨i, v, rest, rfl, hv, h⟩

/-! ### How long a fault lasts (rules R231, R232) -/

/-- Settles O8: the step performs the write, and the pending fault discards it. -/
theorem cmdWriteDiscarded : Obligations.CmdWriteDiscarded := by
  intro s w rest hp hf
  rw [step_action hp, perform_cmd, issue, if_pos hf]

/-- A register write other than the acknowledge leaves the fields of `STATUS` unchanged. -/
theorem Engine.storeReg_flags_of_ne {Re : Type} (s : Engine Re) {r : Reg} (hr : r ≠ .fclr) (v : Word) :
    (s.storeReg r v).fault = s.fault ∧ (s.storeReg r v).ecode = s.ecode ∧ (s.storeReg r v).done = s.done := by
  cases r with
  | fclr => exact absurd rfl hr
  | _ => exact ⟨rfl, rfl, rfl⟩

/-- What one action of the host does to a fault: it ends it by `FCLR` or reset, it may begin one by a `CMD` write with none
pending, or it leaves `STATUS` and `CMD` as they are. -/
theorem perform_fault {a : HostAction Elem} {s t : State} (h : perform a s = .next t) :
    (t.fault = s.fault ∧ t.ecode = s.ecode ∧ t.done = s.done ∧ t.cmd = s.cmd) ∨
    (∃ w, a = .writeReg .cmd w ∧ s.fault = false ∧ t.cmd = w ∧ (t.fault = true → t.done = false)) ∨
    (t.fault = false ∧ ((∃ v, a = .writeReg .fclr v) ∨ a = .reset)) := by
  rcases perform_cases h with ⟨i, v, -, -, rfl⟩ | ⟨i, -, rfl⟩ | ⟨w, -, -, rfl⟩ | ⟨w, i, y, rfl, hf, -, -, rfl⟩ |
    ⟨w, e, rfl, hf, rfl⟩ | ⟨r, v, rfl, -, rfl⟩ | ⟨r, -, rfl⟩ | ⟨rfl, rfl⟩
  · exact .inl ⟨rfl, rfl, rfl, rfl⟩
  · exact .inl ⟨rfl, rfl, rfl, rfl⟩
  · exact .inl ⟨rfl, rfl, rfl, rfl⟩
  · exact .inr (.inl ⟨w, rfl, hf, rfl, fun hft => absurd hf (ne_false_of_eq_true hft)⟩)
  · exact .inr (.inl ⟨w, rfl, hf, rfl, fun _ => rfl⟩)
  · by_cases hr : r = .fclr
    · subst hr
      exact .inr (.inr ⟨rfl, .inl ⟨v, rfl⟩⟩)
    · obtain ⟨hfault, hecode, hdone⟩ := s.toEngine.storeReg_flags_of_ne hr v
      exact .inl ⟨hfault, hecode, hdone, Engine.storeReg_cmd _ r v⟩
  · exact .inl ⟨rfl, rfl, rfl, rfl⟩
  · exact .inr (.inr ⟨rfl, .inr rfl⟩)

/-- Settles O38: a step is idle or one action of the host. -/
theorem faultIsSticky : Obligations.FaultIsSticky := by
  intro s t h
  rcases step_cases h with ⟨-, rfl⟩ | ⟨a, rest, hp, ha⟩
  · exact ⟨fun h1 h0 => absurd h0 (ne_false_of_eq_true h1), fun _ _ => ⟨rfl, rfl, rfl⟩,
      fun h0 h1 => absurd h0 (ne_false_of_eq_true h1)⟩
  rcases perform_fault ha with ⟨hfault, hkeep⟩ | ⟨w, rfl, hf, hw, hdone⟩ | ⟨hft, hend⟩
  · exact ⟨fun h1 h0 => absurd h0 (ne_false_of_eq_true (hfault.trans h1)), fun _ _ => hkeep,
      fun h0 h1 => absurd (hfault.trans h0) (ne_false_of_eq_true h1)⟩
  · exact ⟨fun h1 => absurd hf (ne_false_of_eq_true h1), fun h1 => absurd hf (ne_false_of_eq_true h1),
      fun _ h1 => ⟨w, rest, hp, hw, hdone h1⟩⟩
  · refine ⟨fun _ _ => ?_, fun _ h1 => absurd hft (ne_false_of_eq_true h1),
      fun _ h1 => absurd hft (ne_false_of_eq_true h1)⟩
    rcases hend with ⟨v, rfl⟩ | rfl
    · exact .inl ⟨v, rest, hp⟩
    · exact .inr ⟨rest, hp⟩

end Sys2Proof.Machine
end

section
/-! PROOFS. The reset action of spec/70_reset_and_hazards.md (rule R260): it reaches the reset state from every state, apart
from the model's own two lists. -/

namespace Sys2Proof.Machine

/-- Resetting the engine inside a state leaves nothing of that state but the two lists, which belong to no engine (log entry
17). -/
theorem State.resetEngine_eq_reset_with_lists (s : State) :
    s.resetEngine = { State.reset with pending := s.pending, reads := s.reads } := rfl

/-- Settles O11: the action resets the engine, and the engine is all of the state but the two lists. -/
theorem resetAction : Obligations.ResetAction := by
  intro s
  rw [perform_reset, State.resetEngine_eq_reset_with_lists]

end Sys2Proof.Machine
end
